-- ==== Sys2Proof/Word.lean ====
section
/-! DEFINITION. The word types of the block: bytes, command words, response words and 32-bit data.
Bits are numbered from 0 at the least significant end (spec 00_scope.md R9), which is `BitVec`'s own numbering. -/

namespace Sys2Proof

/-- A byte is 8 bits (R9). -/
abbrev Byte := BitVec 8

/-- One command word of the command port (R27, R58). -/
abbrev CommandWord := BitVec 64

/-- One response word of the response port (R28, R66). -/
abbrev ResponseWord := BitVec 64

/-- The DATA operand and the read result are 32 bits wide (R7). -/
abbrev Data := BitVec 32

end Sys2Proof
end

