-- ==== Sys2Proof/Config.lean ====
section
/-! DEFINITION. What is fixed for the machine (MAX_N, the default CAP_BYTES) and the FREE VALUES, which the spec
leaves open: constants with no body, so that nothing in Lean can tell what they are (notes/assumptions/2, 3, 4, 5).
CAP_BYTES itself is a parameter of the model (R6, D4): it stands in `State.capBytes`, which nothing writes. -/

namespace Sys2Proof

/-- What the sink or the source answers to one transaction (R29, R30, R36): a draw the block does not control.
`err moved` carries what the spec leaves open about the failed transaction: how many bytes a failed `SinkWrite`
left in the sink (any initial part of its bytes, R95, D18), or how far a failed `SourceRead` moved the source
(DESIGN CHOICE, notes/assumptions/5). -/
inductive PortAnswer where
  | ok
  | err (moved : Nat)
deriving DecidableEq, Repr, Inhabited

/-- MAX_N, the largest field width WRITE_BITS and READ_BITS may name (R7). -/
abbrev Config.maxN : Nat := 32

/-- The default CAP_BYTES (R6: "4096 is the default instance, not a fixed value"). -/
abbrev Config.defaultCapBytes : Nat := 4096

/-- FREE VALUE: the answer to the transaction with this number, where `State.answers` lists none (R36). -/
opaque Config.freeAnswer : Nat → PortAnswer

/-- FREE VALUE: byte `i` of BUF after an IO_ERROR (R101), by transaction number and index. -/
opaque Config.freeByte : Nat → Nat → Byte

/-- FREE VALUE: OFFSET after an IO_ERROR (R101), before it is bounded by CAP_BITS. -/
opaque Config.freeOffset : Nat → Nat

/-- FREE VALUE: VALID after an IO_ERROR (R101), before it is bounded by CAP_BYTES. -/
opaque Config.freeValid : Nat → Nat

end Sys2Proof
end

