-- ==== Sys2Proof/Syntax.lean ====
section
/-! DEFINITION. The syntax of the five commands (spec 30_encoding.md R59, R71), one constructor per row of
spec/opcode_table.json, and the two outcomes of decoding a word (R63). "Command" and "instruction" mean the same (R15). -/

namespace Sys2Proof

/-- The five commands. The operands are the command word's own fields, taken as they stand there (R64). -/
inductive Instr where
  /-- `WRITE_BIT b` (R74) -/
  | writeBit (b : Bool)
  /-- `WRITE_BITS n, value` (R75): N is a 6-bit field (R60), of which 0 .. 32 are legal -/
  | writeBits (n : BitVec 6) (value : Data)
  /-- `READ_BIT` (R84) -/
  | readBit
  /-- `READ_BITS n` (R85) -/
  | readBits (n : BitVec 6)
  /-- `FLUSH` (R89) -/
  | flush
deriving DecidableEq, Repr

/-- What decoding a 64-bit word yields (R63): one of the five commands, or ILLEGAL_COMMAND. -/
inductive Decoded where
  | command (i : Instr)
  | illegalCommand
deriving DecidableEq, Repr

end Sys2Proof
end

