-- ==== Sys2Proof/WellFormed.lean ====
section
/-! DEFINITION. Which instruction terms stand for a command: the field width of WRITE_BITS and READ_BITS is at most
MAX_N = 32 (spec 30_encoding.md R60). Every other operand value is legal. -/

namespace Sys2Proof

/-- "For WRITE_BITS and READ_BITS, 0 ≤ n ≤ MAX_N = 32 is legal and n = 33 .. 63 is ILLEGAL_COMMAND" (R60). -/
def widthLegal (n : BitVec 6) : Bool := decide (n.toNat ≤ Config.maxN)

/-- A term that some command word encodes. -/
def Instr.wf : Instr → Bool
  | .writeBit _ => true
  | .writeBits n _ => widthLegal n
  | .readBit => true
  | .readBits n => widthLegal n
  | .flush => true

end Sys2Proof
end

