-- ==== Sys2Proof/Decode.lean ====
section
/-! DEFINITION. The command word's fields, the decoder, total on every 64-bit word and rejecting by the spec's own name
ILLEGAL_COMMAND (spec 30_encoding.md R58 to R64), and after it the encoder (R58, R71). -/

namespace Sys2Proof

/-- OP, bits 3:0 of a command word (R58). -/
def opField (w : CommandWord) : BitVec 4 := w.extractLsb' 0 4

/-- RES0, bits 7:4 (R58). -/
def res0Field (w : CommandWord) : BitVec 4 := w.extractLsb' 4 4

/-- N, bits 13:8 (R58, R60). -/
def nField (w : CommandWord) : BitVec 6 := w.extractLsb' 8 6

/-- RES1, bits 31:14 (R58). -/
def res1Field (w : CommandWord) : BitVec 18 := w.extractLsb' 14 18

/-- DATA, bits 63:32 (R58, R61). -/
def dataField (w : CommandWord) : Data := w.extractLsb' 32 32

/-- `decode(cmd)` of R63, case by case. A case whose condition fails falls to ILLEGAL_COMMAND, as does every
reserved opcode (R69). MODE has no part in it. -/
def decode (w : CommandWord) : Decoded :=
  let op := opField w
  let n := nField w
  let data := dataField w
  if res0Field w ≠ 0 ∨ res1Field w ≠ 0 then .illegalCommand
  else if op = 0x1 then
    if n = 0 ∧ data.extractLsb' 1 31 = 0 then .command (.writeBit (data.getLsbD 0)) else .illegalCommand
  else if op = 0x2 then
    if widthLegal n then .command (.writeBits n data) else .illegalCommand
  else if op = 0x3 then
    if n = 0 ∧ data = 0 then .command .readBit else .illegalCommand
  else if op = 0x4 then
    if widthLegal n ∧ data = 0 then .command (.readBits n) else .illegalCommand
  else if op = 0x5 then
    if n = 0 ∧ data = 0 then .command .flush else .illegalCommand
  else .illegalCommand

/-- The opcode map of R59. -/
def opcodeOf : Instr → BitVec 4
  | .writeBit _ => 0x1
  | .writeBits _ _ => 0x2
  | .readBit => 0x3
  | .readBits _ => 0x4
  | .flush => 0x5

/-- The N field of a command, "no (must be 0)" where R59 says the command does not use it. -/
def widthOperand : Instr → BitVec 6
  | .writeBit _ => 0
  | .writeBits n _ => n
  | .readBit => 0
  | .readBits n => n
  | .flush => 0

/-- The DATA field of a command (R59, R61). -/
def dataOperand : Instr → Data
  | .writeBit b => (BitVec.ofBool b).setWidth 32
  | .writeBits _ value => value
  | .readBit => 0
  | .readBits _ => 0
  | .flush => 0

/-- `OP | (n << 8) | (DATA << 32)` (R71). -/
def assemble (op : BitVec 4) (n : BitVec 6) (data : Data) : CommandWord :=
  op.setWidth 64 ||| (n.setWidth 64 <<< 8) ||| (data.setWidth 64 <<< 32)

/-- The word of an instruction, from the encoding of R58, R59 and R71. -/
def encode (i : Instr) : CommandWord := assemble (opcodeOf i) (widthOperand i) (dataOperand i)

/-- A decoded word as an optional instruction. -/
def Decoded.toOption : Decoded → Option Instr
  | .command i => some i
  | .illegalCommand => none

/-- The word of the opcode table as a command word: bits `nbits` and above are 0 (every command is one 64-bit word, R70). -/
def tableWord (nbits w : Nat) : CommandWord := BitVec.ofNat 64 (w % 2 ^ nbits)

/-- What the decoder reads from a word numbered as the opcode table numbers it. -/
def decodeTableWord (nbits w : Nat) : Option Instr := (decode (tableWord nbits w)).toOption

end Sys2Proof
end

