-- ==== Sys2Proof/Machine/State.lean ====
section
/-! DEFINITION. The state of the block and of its ports, as plain data (spec 10_state.md), the reasons a step could
stop, and the state after reset. The seven elements of R16 come first; then the ports of R27 to R31 with what stands
behind them (the host, the sink and the source are environment agents, R36); then the model's own free-value fields. -/

namespace Sys2Proof.Machine

/-- MODE (R17): 0 = WRITE, 1 = READ. -/
inductive Mode where
  | write
  | read
deriving DecidableEq, Repr

/-- The three faults the block raises (R94). They are sticky state (FAULT, FAULT_CODE), never a stop of the machine. -/
inductive FaultKind where
  | ioError
  | illegalCommand
  | modeViolation
deriving DecidableEq, Repr

/-- BUF as (index, byte) pairs in canonical form (`Memory.wf`): indices strictly rising, no entry 0x00. An unlisted
index reads 0x00, the value BUF has after reset, a drain and a FLUSH (R35, R73, R89). -/
abbrev Memory := List Host.Cell

/-- One sink transaction (R29) with the sink's answer. -/
inductive SinkTransaction where
  | write (bytes : List Byte) (answer : PortAnswer)
  | flush (answer : PortAnswer)
deriving DecidableEq, Repr

/-- One source transaction (R30): how many bytes were asked for, and the bytes given, or none for `err`. -/
structure SourceTransaction where
  asked : Nat
  given : Option (List Byte)
deriving DecidableEq, Repr

/-- What the host does to the block, one at a time and only between commands (R27, R31, R109, R111). -/
inductive HostEvent where
  /-- drive the MODE_CFG input (R31, R111 step 1) -/
  | driveModeCfg (m : Mode)
  /-- attach a sink that holds no byte yet (R111 step 2) -/
  | attachSink
  /-- attach a source positioned at the first of these bytes (R111 step 2) -/
  | attachSource (bytes : List Byte)
  /-- apply reset (R35, R109, R111 step 3) -/
  | reset
  /-- one command word on the command port (R27, R111 step 4) -/
  | command (w : CommandWord)
deriving DecidableEq, Repr

structure State where
  /-- CAP_BYTES, the configuration parameter of R6; no step writes it -/
  capBytes : Nat
  /-- MODE (R17) -/
  mode : Mode
  /-- BUF (R20) -/
  buf : Memory
  /-- OFFSET (R18) -/
  offset : Nat
  /-- VALID (R19) -/
  valid : Nat
  /-- EOS (R21) -/
  eos : Bool
  /-- FAULT (R22) -/
  fault : Bool
  /-- FAULT_CODE (R22), 4 bits -/
  faultCode : BitVec 4
  /-- the level of the MODE_CFG input (R31) -/
  modeCfg : Mode
  /-- what the host does next, first first (R27, R111, R113) -/
  inbox : List HostEvent
  /-- the response port: every response word given, oldest first (R28) -/
  responses : List ResponseWord
  /-- the sink port: every transaction the attached sink was sent, oldest first (R29) -/
  sinkLog : List SinkTransaction
  /-- R, the byte sequence of the attached source (R30) -/
  source : List Byte
  /-- the source's read position (R30) -/
  sourcePos : Nat
  /-- the source port: every transaction the attached source was sent, oldest first (R30) -/
  sourceLog : List SourceTransaction
  /-- FREE VALUE, the model's own: the answers the sink or source will give, next first; past its end
  `Config.freeAnswer` answers (R36, notes/assumptions/2) -/
  answers : List PortAnswer
  /-- FREE VALUE, the model's own: how many answers were drawn so far -/
  drawCount : Nat
deriving DecidableEq, Repr

/-- Why the machine could stop with a fault: there is no such reason. The block's faults are recorded, answered and
sticky (R97, R102), so every step has a next state; the type is empty. -/
inductive Fault where
deriving DecidableEq, Repr

/-- Why a step could have no meaning. No step of this model answers it: every row of the opcode table is modelled. -/
inductive Refusal where
  /-- raised only by an arm of `exec` without a meaning; safe (the model stops). No arm raises it. -/
  | notModelled (mnemonic : String)
deriving DecidableEq, Repr

/-- The result of a part of a command (R12): it went through with a value, or a port answered `err` and the rest of
the command does not run. -/
inductive Progress (α : Type) where
  | done (a : α) (s : State)
  | ioError (s : State)
deriving DecidableEq, Repr

/-- The block right after a reset (R35) with this capacity, this MODE_CFG and this source: a new sink, no command
given yet, no answer fixed (notes/assumptions/1, 2). -/
def State.booted (capBytes : Nat) (modeCfg : Mode) (source : List Byte) : State where
  capBytes := capBytes
  mode := modeCfg
  buf := []
  offset := match modeCfg with
    | .write => 0
    | .read => 8 * capBytes
  valid := 0
  eos := false
  fault := false
  faultCode := 0
  modeCfg := modeCfg
  inbox := []
  responses := []
  sinkLog := []
  source := source
  sourcePos := 0
  sourceLog := []
  answers := []
  drawCount := 0

/-- The machine right after reset, with the default CAP_BYTES (R6). MODE_CFG is an input (R31): at WRITE here, with an
empty source (DESIGN CHOICE, notes/assumptions/1). -/
def State.reset : State := State.booted Config.defaultCapBytes .write []

end Sys2Proof.Machine
end

