-- ==== Sys2Proof/Machine/Flags.lean ====
section
/-! DEFINITION. The flags and the status view: EOS, the fault codes, and the response word that carries STATUS, EOS and
MODE (spec 10_state.md R21 to R23, 30_encoding.md R66 to R68, 41_read.md R83). -/

namespace Sys2Proof.Machine

/-- The fault's code (R67, R94). -/
def FaultKind.code : FaultKind → BitVec 4
  | .ioError => 1
  | .illegalCommand => 2
  | .modeViolation => 3

/-- STATUS 0: OK, the command completed (R67). -/
def statusOk : BitVec 4 := 0

/-- MODE as the bit of R17: 0 = WRITE, 1 = READ. -/
def Mode.bit : Mode → Bool
  | .write => false
  | .read => true

/-- EOS after a bit is read at position `p` (R83): set where `p ≥ 8 × VALID`, never cleared. -/
def eosAfter (eos : Bool) (valid p : Nat) : Bool := eos || decide (8 * valid ≤ p)

/-- `zext_32(data) | (status << 32) | (EOS << 36) | (MODE << 37)` (R66). -/
def responseWord (status : BitVec 4) (data : Data) (eos : Bool) (mode : Mode) : ResponseWord :=
  data.setWidth 64 ||| (status.setWidth 64 <<< 32) ||| ((BitVec.ofBool eos).setWidth 64 <<< 36)
    ||| ((BitVec.ofBool mode.bit).setWidth 64 <<< 37)

/-- DATA of a response word, bits 31:0 (R66). -/
def responseData (r : ResponseWord) : Data := r.extractLsb' 0 32

/-- STATUS of a response word, bits 35:32 (R66). -/
def responseStatus (r : ResponseWord) : BitVec 4 := r.extractLsb' 32 4

/-- EOS of a response word, bit 36 (R66). -/
def responseEos (r : ResponseWord) : Bool := r.getLsbD 36

/-- MODE of a response word, bit 37 (R66). -/
def responseMode (r : ResponseWord) : Bool := r.getLsbD 37

end Sys2Proof.Machine
end

