-- ==== Sys2Proof/Machine/Operands.lean ====
section
/-! DEFINITION. Operand forms: the bit of a byte and the bit of a 32-bit value (spec 20_memory.md R40, 40_write.md R75,
41_read.md R85). There are no register operands, no addresses and no signed values (30_encoding.md R64). -/

namespace Sys2Proof.Machine

/-- `(byte >> i) & 1` (R40). -/
def byteBit (byte : Byte) (i : Nat) : Bool := (byte >>> i).getLsbD 0

/-- `(byte & ~(1 << i)) | (b << i)` (R40, R73). -/
def setByteBit (byte : Byte) (i : Nat) (b : Bool) : Byte :=
  (byte &&& ~~~(1#8 <<< i)) ||| ((BitVec.ofBool b).setWidth 8 <<< i)

/-- `value[k]`, the k-th bit a WRITE_BITS writes (R75). -/
def valueBit (value : Data) (k : Nat) : Bool := value.getLsbD k

/-- `zext_32(bit)`, the result of READ_BIT (R84). -/
def bitData (bit : Bool) : Data := (BitVec.ofBool bit).setWidth 32

/-- `value | (bit << k)`, one step of READ_BITS' assembly (R85). -/
def assembleBit (value : Data) (bit : Bool) (k : Nat) : Data := value ||| (bitData bit <<< k)

end Sys2Proof.Machine
end

