-- ==== Sys2Proof/Machine/Ops.lean ====
section
/-! DEFINITION. The named operations over BUF, the ports and the flags that the five commands are built from: reading
and writing BUF, the port transactions (spec 00_scope.md R10), draining and refilling, responding, raising a fault
(60_exceptions.md R97), command entry (R98) and reset (10_state.md R35), which alone undoes a fault (R103). -/

namespace Sys2Proof.Machine

/-! BUF -/

/-- The canonical form: indices strictly rising, and no entry equal to what an unlisted index reads as. -/
abbrev Memory.wf (m : Memory) : Prop :=
  m.Pairwise (fun x y => x.1 < y.1) ∧ ∀ c ∈ m, c.2 ≠ 0#8

/-- Every listed index is below `capBytes`: BUF is BUF[0] .. BUF[CAP_BYTES − 1] (R20). -/
abbrev Memory.within (m : Memory) (capBytes : Nat) : Prop := ∀ c ∈ m, c.1 < capBytes

/-- `BUF[i]` (R10). -/
def Memory.read : Memory → Nat → Byte
  | [], _ => 0#8
  | (a, v) :: rest, i => if i = a then v else Memory.read rest i

/-- `BUF[i] <- v` (R10), keeping the canonical form. -/
def Memory.write : Memory → Nat → Byte → Memory
  | [], i, v => if v = 0#8 then [] else [(i, v)]
  | (a, u) :: rest, i, v =>
    if i < a then (if v = 0#8 then (a, u) :: rest else (i, v) :: (a, u) :: rest)
    else if i = a then (if v = 0#8 then rest else (i, v) :: rest)
    else (a, u) :: Memory.write rest i v

/-- The buffer whose bytes from index `start` on are these, with 0x00 everywhere else (R82, R101). -/
def Memory.ofBytes : Nat → List Byte → Memory
  | _, [] => []
  | start, v :: rest =>
    if v = 0#8 then Memory.ofBytes (start + 1) rest else (start, v) :: Memory.ofBytes (start + 1) rest

/-- `BUF[0], ..., BUF[k-1]`, in increasing index order (R41). -/
def Memory.firstBytes (m : Memory) (k : Nat) : List Byte := (List.range k).map m.read

/-- The bit at bit position `p`: bit `p mod 8` of `BUF[p div 8]` (R40). -/
def Memory.bit (m : Memory) (p : Nat) : Bool := byteBit (m.read (p / 8)) (p % 8)

/-- Write bit `b` at bit position `p` (R40). -/
def Memory.setBit (m : Memory) (p : Nat) (b : Bool) : Memory :=
  m.write (p / 8) (setByteBit (m.read (p / 8)) (p % 8) b)

/-- CAP_BITS = 8 × CAP_BYTES (R6). -/
def State.capBits (s : State) : Nat := 8 * s.capBytes

/-! Port transactions (R10, R29, R30) -/

/-- Sequencing: what follows an `err` answer does not run (R12). -/
def Progress.bind {α β : Type} (r : Progress α) (k : α → State → Progress β) : Progress β :=
  match r with
  | .done a s => k a s
  | .ioError s => .ioError s

/-- The answer the `k`-th coming transaction gets: a free input of the step (R36). -/
def State.answerAt (s : State) (k : Nat) : PortAnswer :=
  s.answers[k]?.getD (Config.freeAnswer (s.drawCount + k))

/-- Use up one answer. -/
def State.drawn (s : State) : State :=
  { s with answers := s.answers.tail, drawCount := s.drawCount + 1 }

/-- Record a sink transaction. -/
def State.sinkSent (s : State) (t : SinkTransaction) : State := { s with sinkLog := s.sinkLog ++ [t] }

/-- Record a source transaction that moved the source by `moved` bytes. -/
def State.sourceAsked (s : State) (t : SourceTransaction) (moved : Nat) : State :=
  { s with sourceLog := s.sourceLog ++ [t], sourcePos := s.sourcePos + moved }

/-- The bytes of R the source has not given yet (R30). -/
def State.sourceRest (s : State) : List Byte := s.source.drop s.sourcePos

/-- `SinkWrite(bs)` (R10, R29). -/
def sinkWrite (bytes : List Byte) (s : State) : Progress Unit :=
  match s.answerAt 0 with
  | .ok => .done () (s.drawn.sinkSent (.write bytes .ok))
  | .err moved => .ioError (s.drawn.sinkSent (.write bytes (.err moved)))

/-- `SinkFlush()` (R10, R29). -/
def sinkFlush (s : State) : Progress Unit :=
  match s.answerAt 0 with
  | .ok => .done () (s.drawn.sinkSent (.flush .ok))
  | .err moved => .ioError (s.drawn.sinkSent (.flush (.err moved)))

/-- `SourceRead(n)` (R10, R30): the next min(n, remaining) bytes. After `err` the source stands anywhere those bytes
reach (DESIGN CHOICE, notes/assumptions/5). -/
def sourceRead (n : Nat) (s : State) : Progress (List Byte) :=
  let bytes := s.sourceRest.take n
  match s.answerAt 0 with
  | .ok => .done bytes (s.drawn.sourceAsked ⟨n, some bytes⟩ bytes.length)
  | .err moved => .ioError (s.drawn.sourceAsked ⟨n, none⟩ (min moved bytes.length))

/-- The bytes one transaction left in the sink: all of an `ok` write, an initial part of a failed one (R29, R95). -/
def SinkTransaction.kept : SinkTransaction → List Byte
  | .write bytes .ok => bytes
  | .write bytes (.err moved) => bytes.take moved
  | .flush _ => []

/-- The byte sequence the sink holds, appended in transaction order (R29). -/
def State.sinkBytes (s : State) : List Byte := s.sinkLog.flatMap SinkTransaction.kept

/-! Writing bits (R73) -/

/-- BUF all 0x00 and OFFSET 0, after a drain and after a FLUSH (R73, R89). -/
def State.emptied (s : State) : State := { s with buf := [], offset := 0 }

/-- Write `b` at OFFSET and advance OFFSET (R73). -/
def State.storeBit (s : State) (b : Bool) : State :=
  { s with buf := s.buf.setBit s.offset b, offset := s.offset + 1 }

/-- A drain: one sink write of the whole buffer, then an empty buffer (R73). -/
def drain (s : State) : Progress Unit :=
  (sinkWrite (s.buf.firstBytes s.capBytes) s).bind fun _ t => .done () t.emptied

/-- Drain a full buffer, lazily (R73). -/
def drainIfFull (s : State) : Progress Unit :=
  if s.offset = s.capBits then drain s else .done () s

/-- `put_bit(b)` (R73). -/
def putBit (b : Bool) (s : State) : Progress Unit :=
  (drainIfFull s).bind fun _ t => .done () (t.storeBit b)

/-- `put_bit(value[k])` for the `count` next values of `k`, ascending (R75). -/
def putField (value : Data) : (count k : Nat) → State → Progress Unit
  | 0, _, s => .done () s
  | count + 1, k, s => (putBit (valueBit value k) s).bind fun _ t => putField value count (k + 1) t

/-! Reading bits (R82, R83) -/

/-- BUF holds these bytes and 0x00 above them, VALID is their number, OFFSET is 0 (R82). -/
def State.refilled (s : State) (bytes : List Byte) : State :=
  { s with buf := Memory.ofBytes 0 bytes, valid := bytes.length, offset := 0 }

/-- OFFSET advances past the bit read; EOS records a bit past the logical end (R83). -/
def State.bitTaken (s : State) : State :=
  { s with offset := s.offset + 1, eos := eosAfter s.eos s.valid s.offset }

/-- `refill()` (R82). -/
def refill (s : State) : Progress Unit :=
  (sourceRead s.capBytes s).bind fun bytes t => .done () (t.refilled bytes)

/-- Refill a consumed buffer, lazily (R83). -/
def refillIfConsumed (s : State) : Progress Unit :=
  if s.offset = s.capBits then refill s else .done () s

/-- `get_bit()` (R83). -/
def getBit (s : State) : Progress Bool :=
  (refillIfConsumed s).bind fun _ t => .done (t.buf.bit t.offset) t.bitTaken

/-- `value | (get_bit() << k)` for the `count` next values of `k`, ascending (R85). -/
def getField : (count k : Nat) → (value : Data) → State → Progress Data
  | 0, _, value, s => .done value s
  | count + 1, k, value, s =>
    (getBit s).bind fun bit t => getField count (k + 1) (assembleBit value bit k) t

/-! Responses, faults and command entry (R66, R97, R98) -/

/-- `respond(status, data)`: one response word on the response port, with EOS and MODE as they are now (R66). -/
def State.respond (s : State) (status : BitVec 4) (data : Data) : State :=
  { s with responses := s.responses ++ [responseWord status data s.eos s.mode] }

/-- FAULT and FAULT_CODE record a fault (R97). -/
def State.faulted (s : State) (f : FaultKind) : State :=
  { s with fault := true, faultCode := f.code }

/-- `raise F` (R97): record the fault and answer with its code. No program counter, mode or mask changes (R102). -/
def State.raise (s : State) (f : FaultKind) : State := (s.faulted f).respond f.code 0

/-- BUF, OFFSET and VALID after an IO_ERROR of any command: any value of their range (R101); FREE VALUES,
notes/assumptions/3. R101 holds for VALID after a write command and FLUSH too, notes/assumptions/4. -/
def State.scrambled (s : State) : State :=
  { s with
    buf := Memory.ofBytes 0 ((List.range s.capBytes).map (Config.freeByte s.drawCount))
    offset := min (Config.freeOffset s.drawCount) s.capBits
    valid := min (Config.freeValid s.drawCount) s.capBytes }

/-- The end of a command's execution: STATUS 0 with its data, or IO_ERROR (R67, R95). -/
def finish : Progress Data → State
  | .done data s => s.respond statusOk data
  | .ioError s => s.scrambled.raise .ioError

/-- Command entry (R98) in the priority of R100: a fault already set, then an illegal operand, then the wrong mode;
otherwise the command executes. -/
def enter (needs : Mode) (legal : Bool) (body : State → Progress Data) (s : State) : State :=
  if s.fault then s.respond s.faultCode 0
  else if !legal then s.raise .illegalCommand
  else if s.mode ≠ needs then s.raise .modeViolation
  else finish (body s)

/-! Reset (R35), the only way out of a fault (R103) -/

/-- Reset's effect: exactly R35, on every element of R16; the ports and what stands behind them keep (R109, R110). -/
def State.resetBlock (s : State) : State :=
  { s with
    mode := s.modeCfg
    buf := []
    offset := match s.modeCfg with
      | .write => 0
      | .read => s.capBits
    valid := 0
    eos := false
    fault := false
    faultCode := 0 }

end Sys2Proof.Machine
end

