-- ==== Sys2Proof/Machine/Flush.lean ====
section
/-! DEFINITION. The FLUSH command (spec 42_flush.md). -/

namespace Sys2Proof.Machine

/-- `ceil(OFFSET / 8)`, the number of bytes that hold written bits (R89, R90). -/
def flushCount (s : State) : Nat := (s.offset + 7) / 8

/-- FLUSH's one sink write, left out where no byte holds a written bit (R89). -/
def publish (s : State) : Progress Unit :=
  if 0 < flushCount s then sinkWrite (s.buf.firstBytes (flushCount s)) s else .done () s

/-- FLUSH (R89): publish the written bytes, flush the sink, empty the buffer, `respond(0, 0)`. -/
def execFlush (s : State) : Host.Outcome State Fault Refusal :=
  .next (enter .write true
    (fun t => (publish t).bind fun _ u => (sinkFlush u).bind fun _ v => .done 0 v.emptied) s)

end Sys2Proof.Machine
end

