-- ==== Sys2Proof/Machine/Read.lean ====
section
/-! DEFINITION. The read commands READ_BIT and READ_BITS (spec 41_read.md). -/

namespace Sys2Proof.Machine

/-- READ_BIT (R84): `get_bit()`, then `respond(0, zext_32(bit))`. -/
def execReadBit (s : State) : Host.Outcome State Fault Refusal :=
  .next (enter .read true (fun t => (getBit t).bind fun bit u => .done (bitData bit) u) s)

/-- READ_BITS (R85): n bits assembled LSB first, then `respond(0, value)`; n = 33 .. 63 is ILLEGAL_COMMAND (R60). -/
def execReadBits (n : BitVec 6) (s : State) : Host.Outcome State Fault Refusal :=
  .next (enter .read (widthLegal n) (fun t => getField n.toNat 0 0 t) s)

end Sys2Proof.Machine
end

