-- ==== Sys2Proof/Machine/Write.lean ====
section
/-! DEFINITION. The write commands WRITE_BIT and WRITE_BITS (spec 40_write.md). -/

namespace Sys2Proof.Machine

/-- WRITE_BIT (R74): `put_bit(b)`, then `respond(0, 0)`. -/
def execWriteBit (b : Bool) (s : State) : Host.Outcome State Fault Refusal :=
  .next (enter .write true (fun t => (putBit b t).bind fun _ u => .done 0 u) s)

/-- WRITE_BITS (R75): `put_bit(value[k])` for k = 0 .. n − 1 ascending, then `respond(0, 0)`; n = 33 .. 63 is
ILLEGAL_COMMAND (R60). -/
def execWriteBits (n : BitVec 6) (value : Data) (s : State) : Host.Outcome State Fault Refusal :=
  .next (enter .write (widthLegal n) (fun t => (putField value n.toNat 0 t).bind fun _ u => .done 0 u) s)

end Sys2Proof.Machine
end

