-- ==== Sys2Proof/Machine/Dispatch.lean ====
section
/-! DEFINITION. One arm per command of the opcode table. -/

namespace Sys2Proof.Machine

def exec (i : Instr) (s : State) : Host.Outcome State Fault Refusal :=
  match i with
  | .writeBit b => Sys2Proof.Machine.execWriteBit b s
  | .writeBits n value => Sys2Proof.Machine.execWriteBits n value s
  | .readBit => Sys2Proof.Machine.execReadBit s
  | .readBits n => Sys2Proof.Machine.execReadBits n s
  | .flush => Sys2Proof.Machine.execFlush s

end Sys2Proof.Machine
end

