-- ==== Sys2Proof/Machine/Inputs.lean ====
section
/-! DEFINITION. The host's side: how the next host event reaches the block, what the events that are no command do
(spec 10_state.md R31, R35, 70_reset_and_hazards.md R109 to R111), and how a command word is accepted
(60_exceptions.md R98). -/

namespace Sys2Proof.Machine

/-- The next host event, taken off the list: one is outstanding at most (R27). -/
def takeEvent (s : State) : Option (HostEvent × State) :=
  match s.inbox with
  | [] => none
  | e :: rest => some (e, { s with inbox := rest })

/-- The MODE_CFG input changes; only reset samples it (R31). -/
def State.modeCfgDriven (s : State) (m : Mode) : State := { s with modeCfg := m }

/-- A new sink that holds nothing yet (R111). -/
def State.sinkAttached (s : State) : State := { s with sinkLog := [] }

/-- A new source, positioned at its first byte (R111). -/
def State.sourceAttached (s : State) (bytes : List Byte) : State :=
  { s with source := bytes, sourcePos := 0, sourceLog := [] }

/-- `accept(cmd)` (R98): a faulted block answers FAULT_CODE and does nothing else; a word that does not decode raises
ILLEGAL_COMMAND; a command is run. -/
def accept (run : Instr → State → Host.Outcome State Fault Refusal) (w : CommandWord) (s : State) :
    Host.Outcome State Fault Refusal :=
  if s.fault then .next (s.respond s.faultCode 0)
  else match decode w with
    | .illegalCommand => .next (s.raise .illegalCommand)
    | .command i => run i s

/-- One host event. -/
def handleEvent (run : Instr → State → Host.Outcome State Fault Refusal) (e : HostEvent) (s : State) :
    Host.Outcome State Fault Refusal :=
  match e with
  | .driveModeCfg m => .next (s.modeCfgDriven m)
  | .attachSink => .next s.sinkAttached
  | .attachSource bytes => .next (s.sourceAttached bytes)
  | .reset => .next s.resetBlock
  | .command w => accept run w s

/-- The host gives one more command word, before anything else it does. -/
def State.commanded (s : State) (w : CommandWord) : State := { s with inbox := .command w :: s.inbox }

end Sys2Proof.Machine
end

