-- ==== Sys2Proof/Machine/Step.lean ====
section
/-! DEFINITION. One step: the next host event, whole (a command is one atomic step, spec 00_scope.md R12, R109). The
block has no program counter (10_state.md R33): it runs the commands the command port delivers, in that order, and waits
where there is none (70_reset_and_hazards.md R110). -/

namespace Sys2Proof.Machine

def step (s : State) : Host.Outcome State Fault Refusal :=
  match takeEvent s with
  | none => .next s
  | some (e, t) => handleEvent exec e t

/-- The command port delivers this word next (notes/assumptions/7). -/
def State.withFetchWord (s : State) (nbits w : Nat) : State := s.commanded (tableWord nbits w)

end Sys2Proof.Machine
end

