-- ==== Sys2Proof/Safety.lean ====
section
/-! DEFINITION. What counts as a state a run can reach (`State.Inv`), as a good end of a run (spec
70_reset_and_hazards.md R112), and the terms the statements use: the bits written so far, the bits still to be read, how
often a command drains or refills, and which words are illegal. -/

namespace Sys2Proof.Machine

/-! Bits of values, of bytes and of the stream -/

/-- The bits of a byte sequence in stream order: bit (i mod 8) of byte (i div 8) (R41). -/
def bytesBits (bytes : List Byte) : List Bool := bytes.flatMap fun v => (List.range 8).map (byteBit v)

/-- Bits 0 .. n − 1 of a value, bit 0 first (R42). -/
def valueBits (value : Data) (n : Nat) : List Bool := (List.range n).map (valueBit value)

/-- Bit positions `lo` .. `hi` − 1 of BUF, in order. -/
def Memory.bits (m : Memory) (lo hi : Nat) : List Bool := (List.range' lo (hi - lo)).map m.bit

/-- The bits with zero bits after them, enough to reach a multiple of 8 (R37, R47). -/
def padToByte (bits : List Bool) : List Bool := bits ++ List.replicate ((8 - bits.length % 8) % 8) false

/-- The bits the sink's bytes hold, followed by the bits at positions 0 .. OFFSET − 1 of BUF (R37). -/
def State.writtenBits (s : State) : List Bool := bytesBits s.sinkBytes ++ s.buf.bits 0 s.offset

/-- The bits a read-mode block has still to return: those of BUF at positions OFFSET .. 8 × VALID − 1, then those of the
source's remaining bytes (R48). -/
def State.unreadBits (s : State) : List Bool := s.buf.bits s.offset (8 * s.valid) ++ bytesBits s.sourceRest

/-! Counts -/

/-- How many times a command that handles `m` bits from OFFSET drains or refills (R77, R87). -/
def State.turnovers (s : State) (m : Nat) : Nat := if m = 0 then 0 else (s.offset + m - 1) / s.capBits

/-- OFFSET after a command that handled `m` bits (R78, R87). -/
def State.offsetAfter (s : State) (m : Nat) : Nat :=
  if m = 0 then s.offset else (s.offset + m - 1) % s.capBits + 1

/-- The next `d` transactions all answer `ok`. -/
abbrev State.answersOk (s : State) (d : Nat) : Prop := ∀ k, k < d → s.answerAt k = .ok

/-! Words -/

/-- The words R96 refuses: a reserved opcode, a nonzero reserved or must-be-zero field, or N > 32 for WRITE_BITS or
READ_BITS (R59 to R62, R69), by bit positions of the word. -/
abbrev wordIllegal (w : CommandWord) : Prop :=
  let op := (w.extractLsb' 0 4).toNat
  op = 0 ∨ 6 ≤ op
  ∨ w.extractLsb' 4 4 ≠ 0 ∨ w.extractLsb' 14 18 ≠ 0
  ∨ ((op = 1 ∨ op = 3 ∨ op = 5) ∧ w.extractLsb' 8 6 ≠ 0)
  ∨ ((op = 2 ∨ op = 4) ∧ 32 < (w.extractLsb' 8 6).toNat)
  ∨ (op = 1 ∧ w.extractLsb' 33 31 ≠ 0)
  ∨ ((op = 3 ∨ op = 4 ∨ op = 5) ∧ w.extractLsb' 32 32 ≠ 0)

/-- The mode a command is legal in (R17). -/
def neededMode : Instr → Mode
  | .writeBit _ => .write
  | .writeBits _ _ => .write
  | .readBit => .read
  | .readBits _ => .read
  | .flush => .write

/-! Reachable states -/

/-- What every step keeps. The first fields are the ranges of R16 and the canonical form of BUF; `code_zero` is R22's
"FAULT = 0 implies FAULT_CODE = 0" and its converse; the last four are the write-mode and read-mode invariants of R25
and R26, which a block that has recorded IO_ERROR no longer keeps for BUF and VALID (R101). -/
structure State.Inv (s : State) : Prop where
  cap_pos : 1 ≤ s.capBytes
  buf_wf : s.buf.wf
  buf_within : s.buf.within s.capBytes
  offset_le : s.offset ≤ s.capBits
  valid_le : s.valid ≤ s.capBytes
  code_le : s.faultCode.toNat ≤ 3
  code_zero : s.fault = false ↔ s.faultCode = 0
  source_le : s.sourcePos ≤ s.source.length
  write_eos : s.mode = .write → s.eos = false
  write_valid : s.faultCode ≠ 1#4 → s.mode = .write → s.valid = 0
  write_clean : s.fault = false → s.mode = .write → ∀ p, p < s.capBits → s.offset ≤ p → s.buf.bit p = false
  read_clean : s.fault = false → s.mode = .read → ∀ i, i < s.capBytes → s.valid ≤ i → s.buf.read i = 0#8

/-- Read mode: a buffer that is not yet consumed and was filled short came from a source that is at its end: "The source never
returns fewer bytes than that before its end" (D12). Every command keeps it; a host that attaches another source in the
middle of a run breaks it (notes/assumptions/6). -/
abbrev State.SourceInStep (s : State) : Prop :=
  s.mode = .read → s.offset < s.capBits → s.valid < s.capBytes → s.sourceRest = []

/-- Several commands one after the other, each answered before the next (R27). -/
def execAll : List Instr → State → Host.Outcome State Fault Refusal
  | [], s => .next s
  | i :: rest, s =>
    match exec i s with
    | .next t => execAll rest t
    | .fault r => .fault r
    | .refused r => .refused r

/-! A good end of a run (R112) -/

/-- STATUS of the last response word is 0. -/
def State.lastAnswerOk (s : State) : Bool :=
  match s.responses.getLast? with
  | none => false
  | some r => responseStatus r = statusOk

/-- A run whose last command word was `last` ends well in `s`: the last answer has STATUS 0 and FAULT = 0, and in write
mode that command is FLUSH (R112). -/
abbrev EndsWell (last : CommandWord) (s : State) : Prop :=
  s.lastAnswerOk = true ∧ s.fault = false ∧ (s.mode = .write → decode last = .command .flush)

/-- The bytes the sink gained between two states: the stream of a write-mode run is the sink's bytes since reset (R112). -/
def sinkSince (before after : State) : List Byte := after.sinkBytes.drop before.sinkBytes.length

end Sys2Proof.Machine
end

