-- ==== Sys2Proof/Certificates/Slice0/Obligations.lean ====
section
/-! DEFINITION. The statements for the provers. In an equation `t = { s with buf := t.buf, ... }` the fields named are
those the command may change; every other field of the state is as it was. A free value (BUF, OFFSET and VALID after an
IO_ERROR, R101) is left as `t.buf`, `t.offset`, `t.valid`: the statement holds whatever it is. -/

open Sys2Proof Sys2Proof.Machine

/-! Encoding (30_encoding.md) -/

/-- R58 to R64, R71: the decoder reads back every command, with every operand value, from its encoding. -/
def Obligations.DecodeReadsBackEveryEncodedCommand : Prop :=
  ∀ i : Instr, i.wf = true → decode (encode i) = .command i

/-- R63: a word that decodes is the encoding of the command it decodes to, and of no other. -/
def Obligations.DecodedWordIsItsCommandsEncoding : Prop :=
  ∀ (w : CommandWord) (i : Instr), decode w = .command i → w = encode i ∧ i.wf = true

/-- R65: the match and mask of each command, with the value condition of WRITE_BITS and READ_BITS. -/
def Obligations.DecodeAgreesWithMatchAndMask : Prop :=
  ∀ w : CommandWord,
    ((∃ b, decode w = .command (.writeBit b)) ↔ w &&& 0xFFFFFFFEFFFFFFFF#64 = 0x1#64) ∧
    ((∃ n v, decode w = .command (.writeBits n v)) ↔
      w &&& 0x00000000FFFFC0FF#64 = 0x2#64 ∧ (w.extractLsb' 8 6).toNat ≤ 32) ∧
    (decode w = .command .readBit ↔ w &&& 0xFFFFFFFFFFFFFFFF#64 = 0x3#64) ∧
    ((∃ n, decode w = .command (.readBits n)) ↔
      w &&& 0xFFFFFFFFFFFFC0FF#64 = 0x4#64 ∧ (w.extractLsb' 8 6).toNat ≤ 32) ∧
    (decode w = .command .flush ↔ w &&& 0xFFFFFFFFFFFFFFFF#64 = 0x5#64)

/-- R64: n is cmd[13:8], value is cmd[63:32] taken whole, b is cmd[32]. -/
def Obligations.OperandsAreFieldsOfTheWord : Prop :=
  ∀ w : CommandWord,
    (∀ b, decode w = .command (.writeBit b) → b = w.getLsbD 32) ∧
    (∀ n v, decode w = .command (.writeBits n v) → n = w.extractLsb' 8 6 ∧ v = w.extractLsb' 32 32) ∧
    (∀ n, decode w = .command (.readBits n) → n = w.extractLsb' 8 6)

/-- R69, R96: the words that decode to ILLEGAL_COMMAND are exactly those with a reserved opcode, a nonzero reserved or
must-be-zero field, or N > 32 for WRITE_BITS or READ_BITS. -/
def Obligations.IllegalWordsAreExactlyTheReservedOnes : Prop :=
  ∀ w : CommandWord, decode w = .illegalCommand ↔ wordIllegal w

/-- R71: the four words the rule assembles, and the word of READ_BIT (95_test_vectors.md P2). -/
def Obligations.SpecExampleWordsDecode : Prop :=
  decode 0x0000000100000001#64 = .command (.writeBit true) ∧
  decode 0x0000006100000802#64 = .command (.writeBits 8 0x61) ∧
  decode 0x0000000000000704#64 = .command (.readBits 7) ∧
  decode 0x0000000000000005#64 = .command .flush ∧
  decode 0x0000000000000003#64 = .command .readBit

/-- R66: where DATA, STATUS, EOS and MODE stand in a response word; bits 63:38 are 0. -/
def Obligations.ResponseWordLayout : Prop :=
  ∀ (status : BitVec 4) (data : Data) (eos : Bool) (mode : Mode),
    (responseWord status data eos mode).extractLsb' 0 32 = data ∧
    (responseWord status data eos mode).extractLsb' 32 4 = status ∧
    (responseWord status data eos mode).getLsbD 36 = eos ∧
    (responseWord status data eos mode).getLsbD 37 = mode.bit ∧
    (responseWord status data eos mode).extractLsb' 38 26 = 0#26

/-! A step, command entry, responses (60_exceptions.md R98 to R101, 10_state.md R23, R28) -/

/-- R98: a step whose host event is a command word runs the command the word decodes to. -/
def Obligations.StepRunsTheDecodedCommand : Prop :=
  ∀ (s : State) (w : CommandWord) (i : Instr) (rest : List HostEvent),
    s.inbox = .command w :: rest → decode w = .command i → step s = exec i { s with inbox := rest }

/-- R28: exactly one response word per accepted command, in command order; no other host event gets a response. -/
def Obligations.OneResponsePerCommand : Prop :=
  ∀ (s : State) (e : HostEvent) (rest : List HostEvent), s.inbox = e :: rest →
    ∃ t given, step s = .next t ∧ t.inbox = rest ∧ t.responses = s.responses ++ given ∧
      ((∃ w, e = .command w) → given.length = 1) ∧ ((∀ w, e ≠ .command w) → given = [])

/-- R23, R66, R67: the status view a response carries. STATUS is 0 and FAULT stays 0, or STATUS is FAULT_CODE, 1 .. 3;
EOS and MODE are the state's after the command; DATA is 0 with every STATUS but 0. -/
def Obligations.ResponseCarriesTheStatusView : Prop :=
  ∀ (s : State) (w : CommandWord) (rest : List HostEvent), s.Inv → s.inbox = .command w :: rest →
    ∃ t r, step s = .next t ∧ t.responses = s.responses ++ [r] ∧
      responseStatus r = t.faultCode ∧ (responseStatus r = 0#4 ↔ t.fault = false) ∧ (responseStatus r).toNat ≤ 3 ∧
      responseEos r = t.eos ∧ responseMode r = t.mode.bit ∧
      (responseStatus r ≠ 0#4 → responseData r = 0#32) ∧ r.extractLsb' 38 26 = 0#26

/-- R120: a faulted block answers every command word with FAULT_CODE and does nothing else. -/
def Obligations.FaultedBlockOnlyAnswers : Prop :=
  ∀ s : State, s.fault = true →
    (∀ w rest, s.inbox = .command w :: rest →
      step s = .next { s with inbox := rest, responses := s.responses ++ [responseWord s.faultCode 0 s.eos s.mode] }) ∧
    (∀ i, exec i s = .next { s with responses := s.responses ++ [responseWord s.faultCode 0 s.eos s.mode] })

/-- R69, R96: a word with a reserved opcode, a nonzero reserved or must-be-zero field or N > 32 raises ILLEGAL_COMMAND
before any effect. -/
def Obligations.IllegalWordRaisesIllegalCommand : Prop :=
  ∀ (s : State) (w : CommandWord) (rest : List HostEvent),
    s.inbox = .command w :: rest → s.fault = false → wordIllegal w →
    step s = .next { s with
      inbox := rest, fault := true, faultCode := 2#4
      responses := s.responses ++ [responseWord 2 0 s.eos s.mode] }

/-- R60: N = 33 .. 63 is ILLEGAL_COMMAND for WRITE_BITS and READ_BITS. That the meaning checks it too, for a term no word
decodes to, is the model's choice (notes/assumptions/10). -/
def Obligations.WidthsAboveMaxNAreIllegal : Prop :=
  ∀ (s : State) (n : BitVec 6) (v : Data), s.fault = false → 32 < n.toNat →
    exec (.writeBits n v) s = .next { s with
      fault := true, faultCode := 2#4, responses := s.responses ++ [responseWord 2 0 s.eos s.mode] } ∧
    exec (.readBits n) s = .next { s with
      fault := true, faultCode := 2#4, responses := s.responses ++ [responseWord 2 0 s.eos s.mode] }

/-- R99: a read command in write mode, or a write command or FLUSH in read mode, raises MODE_VIOLATION before any
effect; it makes no port transaction. -/
def Obligations.WrongModeRaisesModeViolation : Prop :=
  ∀ (s : State) (i : Instr), i.wf = true → s.fault = false → s.mode ≠ neededMode i →
    exec i s = .next { s with
      fault := true, faultCode := 3#4, responses := s.responses ++ [responseWord 3 0 s.eos s.mode] }

/-- R100: the first of FAULT already set, ILLEGAL_COMMAND, MODE_VIOLATION and IO_ERROR is reported, and within execution
the first transaction that answers `err` raises IO_ERROR, after which the command makes no transaction. `made` is the
number of transactions of the command. -/
def Obligations.FirstApplicableFaultIsReported : Prop :=
  ∀ (s : State) (w : CommandWord) (rest : List HostEvent), s.inbox = .command w :: rest →
    ∃ t r made, step s = .next t ∧ t.responses = s.responses ++ [r] ∧ t.drawCount = s.drawCount + made ∧
      (s.fault = true → responseStatus r = s.faultCode ∧ made = 0) ∧
      (s.fault = false → wordIllegal w → responseStatus r = 2#4 ∧ made = 0) ∧
      (s.fault = false → ∀ i, decode w = .command i → s.mode ≠ neededMode i → responseStatus r = 3#4 ∧ made = 0) ∧
      (s.fault = false → ∀ i, decode w = .command i → s.mode = neededMode i →
        (responseStatus r = 0#4 ∧ ∀ k, k < made → s.answerAt k = .ok) ∨
        (responseStatus r = 1#4 ∧ 0 < made ∧ (∀ k, k + 1 < made → s.answerAt k = .ok) ∧
          ∃ x, s.answerAt (made - 1) = .err x))

/-- R101: BUF, OFFSET and VALID of a faulted block are never observed again: a command word gives the same next state
whatever they are, and a reset gives one next state whatever they were. -/
def Obligations.FaultedBufferIsNeverObserved : Prop :=
  ∀ (s : State) (buf : Memory) (offset valid : Nat) (rest : List HostEvent), s.fault = true →
    (∀ w, s.inbox = .command w :: rest → ∃ t, step s = .next t ∧
      step { s with buf := buf, offset := offset, valid := valid }
        = .next { t with buf := buf, offset := offset, valid := valid }) ∧
    (s.inbox = .reset :: rest →
      ∃ t, step s = .next t ∧ step { s with buf := buf, offset := offset, valid := valid } = .next t)

/-- R103: while FAULT = 1 no command executes and the first code is kept; only reset clears FAULT and FAULT_CODE. That a host
may attach a sink then, and that `sinkLog` starts empty where it does, is the model's choice (notes/assumptions/6). -/
def Obligations.OnlyResetEndsAFault : Prop :=
  ∀ (s : State) (e : HostEvent) (rest : List HostEvent), s.inbox = e :: rest → s.fault = true →
    ∃ t, step s = .next t ∧
      (e = .reset → t.fault = false ∧ t.faultCode = 0#4) ∧
      (e ≠ .reset → t.fault = true ∧ t.faultCode = s.faultCode ∧ t.sinkLog = (if e = .attachSink then [] else s.sinkLog) ∧
        t.drawCount = s.drawCount ∧ t.buf = s.buf ∧ t.offset = s.offset ∧ t.valid = s.valid ∧ t.eos = s.eos)

/-! Reset and the host's inputs (R31, R35, R109 to R111) -/

/-- R35: every element of R16 after a reset; the ports keep, so reset makes no transaction. -/
def Obligations.ResetSetsEveryElement : Prop :=
  ∀ (s : State) (rest : List HostEvent), s.inbox = .reset :: rest →
    ∃ t, step s = .next t ∧
      t = { s with
        inbox := rest, mode := s.modeCfg, buf := t.buf, offset := t.offset, valid := 0, eos := false, fault := false
        faultCode := 0#4 } ∧
      (∀ i, t.buf.read i = 0#8) ∧
      (s.modeCfg = .write → t.offset = 0) ∧ (s.modeCfg = .read → t.offset = s.capBits)

/-- R35 and R6 for the state the model calls reset: a write-mode block of the default capacity. That MODE_CFG is WRITE
there is the model's choice (notes/assumptions/1). -/
def Obligations.ResetStateHasTheSpecValues : Prop :=
  State.reset.capBytes = 4096 ∧ State.reset.mode = State.reset.modeCfg ∧ State.reset.buf = [] ∧
  State.reset.offset = 0 ∧ State.reset.valid = 0 ∧ State.reset.eos = false ∧ State.reset.fault = false ∧
  State.reset.faultCode = 0#4 ∧ State.reset.responses = [] ∧ State.reset.sinkLog = [] ∧
  Sys2Proof.core.reset = State.reset

/-- The invariant holds in the reset state (R25, R35). -/
def Obligations.ResetStateMeetsInvariant : Prop := State.reset.Inv ∧ State.reset.SourceInStep

/-- Reset establishes the invariant from any state whose capacity and source position are in range, in either mode
(R25, R26, R35); it is what ends the freedom R101 leaves. -/
def Obligations.ResetEstablishesInvariant : Prop :=
  ∀ s : State, 1 ≤ s.capBytes → s.sourcePos ≤ s.source.length →
    s.resetBlock.Inv ∧ s.resetBlock.SourceInStep

/-- R31: a change of MODE_CFG changes nothing else, and no command depends on it; only a reset samples it. -/
def Obligations.ModeCfgIsSampledOnlyAtReset : Prop :=
  (∀ (s : State) (m : Mode) (rest : List HostEvent), s.inbox = .driveModeCfg m :: rest →
    step s = .next { s with inbox := rest, modeCfg := m }) ∧
  (∀ (s : State) (i : Instr) (m : Mode), ∃ t, exec i s = .next t ∧ t.modeCfg = s.modeCfg ∧
    exec i { s with modeCfg := m } = .next { t with modeCfg := m }) ∧
  (∀ (s : State) (rest : List HostEvent), s.inbox = .reset :: rest → ∃ t, step s = .next t ∧ t.mode = s.modeCfg)

/-- R110: a block the host asks nothing of waits, with nothing changed (that such a step answers the same state is the model's
choice, notes/assumptions/8). -/
def Obligations.IdleBlockWaits : Prop := ∀ s : State, s.inbox = [] → step s = .next s

/-- R111 step 2 says only that the host attaches a sink, or a source positioned at the first byte of the stream. That an
attached sink holds no byte, that attaching is allowed at any time between commands and that it leaves the block itself
untouched is the model's choice (notes/assumptions/6). -/
def Obligations.AttachingReplacesOnlyTheAgent : Prop :=
  ∀ (s : State) (rest : List HostEvent) (bytes : List Byte),
    (s.inbox = .attachSink :: rest → ∃ t, step s = .next t ∧ t = { s with inbox := rest, sinkLog := t.sinkLog } ∧
      t.sinkBytes = []) ∧
    (s.inbox = .attachSource bytes :: rest → ∃ t, step s = .next t ∧
      t = { s with inbox := rest, source := bytes, sourcePos := t.sourcePos, sourceLog := t.sourceLog } ∧
      t.sourceRest = bytes)

/-! Whole-machine rules -/

/-- The invariant (ranges of R16, canonical BUF, R22, R25, R26) is kept by every step from every state that has it. The
converse of R22's implication is the model's inference (notes/assumptions/9). -/
def Obligations.StepKeepsInvariant : Prop := ∀ s t : State, s.Inv → step s = .next t → t.Inv

/-- D12: a buffer filled short means a source at its end; every command that is not answered with a fault keeps it. -/
def Obligations.CommandsKeepSourceInStep : Prop :=
  ∀ (s t : State) (i : Instr), s.Inv → s.SourceInStep → exec i s = .next t → t.fault = false → t.SourceInStep

/-- Every step has a next state: the block never stops (R97, R102), so a fault is always an answer. -/
def Obligations.EveryStepHasANextState : Prop := ∀ s : State, ∃ t, step s = .next t

/-- R17, R107: no command writes MODE; it is fixed from reset to reset. CAP_BYTES is never written (R6). -/
def Obligations.ModeIsWrittenOnlyByReset : Prop :=
  ∀ (s t : State) (e : HostEvent) (rest : List HostEvent), s.inbox = e :: rest → step s = .next t →
    t.capBytes = s.capBytes ∧ (e ≠ .reset → t.mode = s.mode) ∧ (e = .reset → t.mode = s.modeCfg)

/-- R21: EOS is cleared only by reset and set only by READ_BIT or READ_BITS. -/
def Obligations.EosIsSetByReadsAndClearedByReset : Prop :=
  ∀ (s t : State) (e : HostEvent) (rest : List HostEvent), s.inbox = e :: rest → step s = .next t →
    (s.eos = true → t.eos = false → e = .reset) ∧
    (s.eos = false → t.eos = true → s.mode = .read ∧
      ∃ w, e = .command w ∧ (decode w = .command .readBit ∨ ∃ n, decode w = .command (.readBits n)))

/-- R38, R39, R28: the sink only grows at its end, the source is never written and never goes back, responses are never
taken back; only attaching another sink or source replaces what stands behind a port (R111). -/
def Obligations.PortsOnlyMoveForward : Prop :=
  ∀ (s t : State) (e : HostEvent) (rest : List HostEvent), s.inbox = e :: rest → step s = .next t →
    s.responses <+: t.responses ∧
    (e ≠ .attachSink → s.sinkLog <+: t.sinkLog ∧ s.sinkBytes <+: t.sinkBytes) ∧
    ((∀ bytes, e ≠ .attachSource bytes) →
      t.source = s.source ∧ s.sourcePos ≤ t.sourcePos ∧ s.sourceLog <+: t.sourceLog)

/-- R91: FLUSH is the only command that sends `SinkFlush()`. -/
def Obligations.OnlyFlushSendsSinkFlush : Prop :=
  ∀ (s t : State) (e : HostEvent) (rest : List HostEvent) (a : PortAnswer),
    s.inbox = e :: rest → step s = .next t → .flush a ∈ t.sinkLog.drop s.sinkLog.length →
    ∃ w, e = .command w ∧ decode w = .command .flush

/-- R19: nothing reads VALID in write mode. With any other VALID a command leads to the same next state but for VALID itself,
which it keeps; where it raises IO_ERROR, VALID is open (R101) and the same for both. That it is the same rests on the free
value being taken by draw number (notes/assumptions/3). -/
def Obligations.WriteModeNeverReadsValid : Prop :=
  ∀ (s : State) (i : Instr) (v : Nat), s.mode = .write →
    ∃ t u, exec i s = .next t ∧ exec i { s with valid := v } = .next u ∧ u = { t with valid := u.valid } ∧
      ((t.valid = s.valid ∧ u.valid = v) ∨
        (s.fault = false ∧ t.fault = true ∧ t.faultCode = 1#4 ∧ u.valid = t.valid))

/-! WRITE_BIT and WRITE_BITS (40_write.md) -/

/-- R73, R74, not full: the bit lands at position OFFSET, every other bit position keeps, OFFSET advances. -/
def Obligations.WriteBitStoresAtOffset : Prop :=
  ∀ (s : State) (b : Bool), s.Inv → s.fault = false → s.mode = .write → s.offset < s.capBits →
    ∃ t, exec (.writeBit b) s = .next t ∧
      t = { s with
        buf := t.buf, offset := s.offset + 1, responses := s.responses ++ [responseWord 0 0 s.eos .write] } ∧
      ∀ p, t.buf.bit p = if p = s.offset then b else s.buf.bit p

/-- R73, R74, full: one drain of CAP_BYTES bytes, then the bit lands at position 0 of an empty buffer. -/
def Obligations.WriteBitDrainsAFullBuffer : Prop :=
  ∀ (s : State) (b : Bool), s.Inv → s.fault = false → s.mode = .write → s.offset = s.capBits → s.answerAt 0 = .ok →
    ∃ t, exec (.writeBit b) s = .next t ∧
      t = { s with
        buf := t.buf, offset := 1, responses := s.responses ++ [responseWord 0 0 s.eos .write]
        sinkLog := s.sinkLog ++ [.write (s.buf.firstBytes s.capBytes) .ok]
        answers := s.answers.tail, drawCount := s.drawCount + 1 } ∧
      t.sinkBytes = s.sinkBytes ++ s.buf.firstBytes s.capBytes ∧
      ∀ p, t.buf.bit p = if p = 0 then b else false

/-- R73, R95, R97, full and the sink answers `err`: IO_ERROR; the sink kept an initial part of the buffer. BUF, OFFSET and VALID
are left open (R101, notes/assumptions/3, 4). -/
def Obligations.WriteBitDrainErrorRaisesIoError : Prop :=
  ∀ (s : State) (b : Bool) (kept : Nat), s.fault = false → s.mode = .write → s.offset = s.capBits →
    s.answerAt 0 = .err kept →
    ∃ t, exec (.writeBit b) s = .next t ∧
      t = { s with
        buf := t.buf, offset := t.offset, valid := t.valid, fault := true, faultCode := 1#4
        responses := s.responses ++ [responseWord 1 0 s.eos .write]
        sinkLog := s.sinkLog ++ [.write (s.buf.firstBytes s.capBytes) (.err kept)]
        answers := s.answers.tail, drawCount := s.drawCount + 1 } ∧
      t.sinkBytes = s.sinkBytes ++ (s.buf.firstBytes s.capBytes).take kept

/-- R75, R77, R37: WRITE_BITS appends the low n bits of its value, bit 0 first, to the bits written so far, with the drains
R77 counts, each of CAP_BYTES bytes, and OFFSET as R78 says. -/
def Obligations.WriteBitsAppendsTheField : Prop :=
  ∀ (s : State) (n : BitVec 6) (v : Data), s.Inv → s.fault = false → s.mode = .write → n.toNat ≤ 32 →
    s.answersOk (s.turnovers n.toNat) →
    ∃ t, ∃ drained : List (List Byte), exec (.writeBits n v) s = .next t ∧
      t = { s with
        buf := t.buf, offset := s.offsetAfter n.toNat, responses := s.responses ++ [responseWord 0 0 s.eos .write]
        sinkLog := s.sinkLog ++ drained.map (fun bytes => .write bytes .ok)
        answers := s.answers.drop (s.turnovers n.toNat), drawCount := s.drawCount + s.turnovers n.toNat } ∧
      drained.length = s.turnovers n.toNat ∧ (∀ bytes ∈ drained, bytes.length = s.capBytes) ∧
      t.writtenBits = s.writtenBits ++ valueBits v n.toNat

/-- R42, R44: a field that fits in the buffer fills bit positions OFFSET .. OFFSET + n − 1, bit k of the value at position
OFFSET + k; every other bit position of BUF and every port is as before. -/
def Obligations.WriteBitsFillsPositionsInOrder : Prop :=
  ∀ (s : State) (n : BitVec 6) (v : Data), s.Inv → s.fault = false → s.mode = .write → n.toNat ≤ 32 →
    s.offset + n.toNat ≤ s.capBits →
    ∃ t, exec (.writeBits n v) s = .next t ∧
      t = { s with
        buf := t.buf, offset := s.offset + n.toNat, responses := s.responses ++ [responseWord 0 0 s.eos .write] } ∧
      (∀ k, k < n.toNat → t.buf.bit (s.offset + k) = v.getLsbD k) ∧
      (∀ p, p < s.offset ∨ s.offset + n.toNat ≤ p → t.buf.bit p = s.buf.bit p)

/-- R75, R95, R100: WRITE_BITS whose drain number `j` (from 0) answers `err`: the drains before it went out whole, no
transaction follows it, and what was sent is the first bits of BUF and the value, (j + 1) × CAP_BITS of them. BUF, OFFSET
and VALID are left open (R101, notes/assumptions/3, 4). -/
def Obligations.WriteBitsStopsAtTheFailingDrain : Prop :=
  ∀ (s : State) (n : BitVec 6) (v : Data) (j kept : Nat), s.Inv → s.fault = false → s.mode = .write → n.toNat ≤ 32 →
    j < s.turnovers n.toNat → s.answersOk j → s.answerAt j = .err kept →
    ∃ t, ∃ (drained : List (List Byte)) (last : List Byte), exec (.writeBits n v) s = .next t ∧
      t = { s with
        buf := t.buf, offset := t.offset, valid := t.valid, fault := true, faultCode := 1#4
        responses := s.responses ++ [responseWord 1 0 s.eos .write]
        sinkLog := s.sinkLog ++ drained.map (fun bytes => .write bytes .ok) ++ [.write last (.err kept)]
        answers := s.answers.drop (j + 1), drawCount := s.drawCount + (j + 1) } ∧
      drained.length = j ∧ (∀ bytes ∈ drained, bytes.length = s.capBytes) ∧ last.length = s.capBytes ∧
      bytesBits (drained.flatten ++ last)
        = (s.buf.bits 0 s.offset ++ valueBits v n.toNat).take (s.capBits * (j + 1))

/-- R76: WRITE_BITS n, v has the same effect as the commands WRITE_BIT v[0], ..., WRITE_BIT v[n−1]; it differs only in
answering once. Where a drain fails, that both sides leave the same BUF, OFFSET and VALID rests on the model's free values being
taken by draw number (notes/assumptions/3). -/
def Obligations.WriteBitsEqualsItsWriteBitRun : Prop :=
  ∀ (s : State) (n : BitVec 6) (v : Data), s.fault = false → s.mode = .write → n.toNat ≤ 32 →
    ∃ t u r, exec (.writeBits n v) s = .next t ∧
      execAll ((List.range n.toNat).map fun k => .writeBit (v.getLsbD k)) s = .next u ∧
      t.responses = s.responses ++ [r] ∧ u.responses.length = s.responses.length + n.toNat ∧
      { t with responses := [] } = { u with responses := [] }

/-- R78: OFFSET after a write of m bits with every drain `ok`, for both write commands. -/
def Obligations.OffsetAfterAWrite : Prop :=
  ∀ (s t : State) (i : Instr) (m : Nat), s.Inv → s.fault = false → s.mode = .write →
    ((∃ b, i = .writeBit b ∧ m = 1) ∨ (∃ n v, i = .writeBits n v ∧ m = n.toNat ∧ n.toNat ≤ 32)) →
    exec i s = .next t → t.fault = false →
    (m = 0 → t.offset = s.offset) ∧
    (1 ≤ m → t.offset = (s.offset + m - 1) % s.capBits + 1 ∧ t.offset ≠ 0 ∧
      (t.offset = s.capBits ↔ s.capBits ∣ s.offset + m))

/-- R79: write commands, however they end, make no source transaction, send no `SinkFlush()` and change neither MODE nor EOS,
nor VALID unless they raise IO_ERROR, after which R101 leaves it open (notes/assumptions/4); each sink write is a drain of
CAP_BYTES bytes (R46). -/
def Obligations.WriteCommandsTouchOnlyBufferAndSink : Prop :=
  ∀ (s t : State) (i : Instr), ((∃ b, i = .writeBit b) ∨ (∃ n v, i = .writeBits n v)) → exec i s = .next t →
    t = { s with
      buf := t.buf, offset := t.offset, valid := t.valid, fault := t.fault, faultCode := t.faultCode
      responses := t.responses, sinkLog := t.sinkLog, answers := t.answers, drawCount := t.drawCount } ∧
    (t.valid = s.valid ∨ (s.fault = false ∧ t.fault = true ∧ t.faultCode = 1#4)) ∧
    ∃ sent, t.sinkLog = s.sinkLog ++ sent ∧
      ∀ x ∈ sent, ∃ bytes a, x = .write bytes a ∧ bytes.length = s.capBytes

/-! READ_BIT and READ_BITS (41_read.md) -/

/-- R83, R84, not consumed: the bit at position OFFSET, OFFSET advances, EOS is set past the logical end. -/
def Obligations.ReadBitTakesTheBitAtOffset : Prop :=
  ∀ s : State, s.fault = false → s.mode = .read → s.offset ≠ s.capBits →
    exec .readBit s = .next { s with
      offset := s.offset + 1, eos := s.eos || decide (8 * s.valid ≤ s.offset)
      responses := s.responses ++
        [responseWord 0 (if s.buf.bit s.offset then 1 else 0) (s.eos || decide (8 * s.valid ≤ s.offset)) .read] }

/-- R82 to R84, consumed: one refill with the next min(CAP_BYTES, remaining) source bytes and 0x00 above them, then the bit
at position 0. -/
def Obligations.ReadBitRefillsAConsumedBuffer : Prop :=
  ∀ s : State, s.Inv → s.fault = false → s.mode = .read → s.offset = s.capBits → s.answerAt 0 = .ok →
    ∃ t given, exec .readBit s = .next t ∧ given = s.sourceRest.take s.capBytes ∧
      t = { s with
        buf := t.buf, offset := 1, valid := min s.capBytes (s.source.length - s.sourcePos)
        eos := s.eos || given.isEmpty
        responses := s.responses ++
          [responseWord 0 (if t.buf.bit 0 then 1 else 0) (s.eos || given.isEmpty) .read]
        sourcePos := s.sourcePos + given.length, sourceLog := s.sourceLog ++ [⟨s.capBytes, some given⟩]
        answers := s.answers.tail, drawCount := s.drawCount + 1 } ∧
      ∀ i, t.buf.read i = given.getD i 0#8

/-- R82, R95, R97, consumed and the source answers `err`: IO_ERROR with DATA 0 and EOS as it was. -/
def Obligations.ReadBitSourceErrorRaisesIoError : Prop :=
  ∀ (s : State) (x : Nat), s.fault = false → s.mode = .read → s.offset = s.capBits → s.answerAt 0 = .err x →
    ∃ t, exec .readBit s = .next t ∧
      t = { s with
        buf := t.buf, offset := t.offset, valid := t.valid, fault := true, faultCode := 1#4
        responses := s.responses ++ [responseWord 1 0 s.eos .read]
        sourcePos := t.sourcePos, sourceLog := s.sourceLog ++ [⟨s.capBytes, none⟩]
        answers := s.answers.tail, drawCount := s.drawCount + 1 }

/-- R85, R48: READ_BITS returns the next n unread bits, bit 0 first, with zeros past the end; EOS is set exactly where one
of them lies past the end. It refills the number of times R87 counts and leaves OFFSET as R87 says. -/
def Obligations.ReadBitsReturnsTheNextBits : Prop :=
  ∀ (s : State) (n : BitVec 6), s.Inv → s.SourceInStep → s.fault = false → s.mode = .read → n.toNat ≤ 32 →
    s.answersOk (s.turnovers n.toNat) →
    ∃ t value, exec (.readBits n) s = .next t ∧
      t = { s with
        buf := t.buf, offset := s.offsetAfter n.toNat, valid := t.valid
        eos := s.eos || decide (s.unreadBits.length < n.toNat)
        responses := s.responses ++ [responseWord 0 value t.eos .read]
        sourcePos := t.sourcePos, sourceLog := t.sourceLog
        answers := s.answers.drop (s.turnovers n.toNat), drawCount := s.drawCount + s.turnovers n.toNat } ∧
      t.sourceLog.length = s.sourceLog.length + s.turnovers n.toNat ∧
      (∀ k, value.getLsbD k = (decide (k < n.toNat) && s.unreadBits.getD k false)) ∧
      t.unreadBits = s.unreadBits.drop n.toNat ∧ t.SourceInStep

/-- R86: READ_BITS n has the same effect as n READ_BIT commands, and its result is their bits, bit k from the k-th. Where a
refill fails, that both sides leave the same BUF, OFFSET and VALID rests on the model's free values being taken by draw number
(notes/assumptions/3). -/
def Obligations.ReadBitsEqualsItsReadBitRun : Prop :=
  ∀ (s : State) (n : BitVec 6), s.fault = false → s.mode = .read → n.toNat ≤ 32 →
    ∃ t u r rs, exec (.readBits n) s = .next t ∧ execAll (List.replicate n.toNat .readBit) s = .next u ∧
      t.responses = s.responses ++ [r] ∧ u.responses = s.responses ++ rs ∧ rs.length = n.toNat ∧
      { t with responses := [] } = { u with responses := [] } ∧
      (u.fault = false → ∀ k, (responseData r).getLsbD k =
        (decide (k < n.toNat) && (responseData (rs.getD k 0)).getLsbD 0))

/-- R81: past the logical end a read answers 0 bits with STATUS 0 and sets EOS, for both read commands: it never faults for
lack of input. -/
def Obligations.ReadPastTheEndReturnsZeros : Prop :=
  ∀ (s : State) (i : Instr) (m : Nat), s.Inv → s.fault = false → s.mode = .read →
    s.unreadBits = [] → s.answersOk (s.turnovers m) →
    ((i = .readBit ∧ m = 1) ∨ (∃ n, i = .readBits n ∧ m = n.toNat ∧ 1 ≤ m ∧ m ≤ 32)) →
    ∃ t, exec i s = .next t ∧ t.fault = false ∧ t.eos = true ∧ t.unreadBits = [] ∧
      t.responses = s.responses ++ [responseWord 0 0 true .read]

/-- R88: read commands, however they end, make no sink transaction and do not change MODE; each source transaction asks
for CAP_BYTES bytes (R30). -/
def Obligations.ReadCommandsTouchOnlyBufferAndSource : Prop :=
  ∀ (s t : State) (i : Instr), (i = .readBit ∨ ∃ n, i = .readBits n) → exec i s = .next t →
    t = { s with
      buf := t.buf, offset := t.offset, valid := t.valid, eos := t.eos, fault := t.fault, faultCode := t.faultCode
      responses := t.responses, sourcePos := t.sourcePos, sourceLog := t.sourceLog
      answers := t.answers, drawCount := t.drawCount } ∧
    ∃ asked, t.sourceLog = s.sourceLog ++ asked ∧ ∀ x ∈ asked, x.asked = s.capBytes

/-- R75, R85: a field of width 0 makes no transaction even at a full or consumed buffer and answers OK with DATA 0. -/
def Obligations.ZeroWidthFieldsOnlyAnswer : Prop :=
  ∀ (s : State) (v : Data), s.fault = false →
    (s.mode = .write → exec (.writeBits 0 v) s
      = .next { s with responses := s.responses ++ [responseWord 0 0 s.eos .write] }) ∧
    (s.mode = .read → exec (.readBits 0) s
      = .next { s with responses := s.responses ++ [responseWord 0 0 s.eos .read] })

/-! FLUSH (42_flush.md) -/

/-- R89: FLUSH with every answer `ok` sends the ceil(OFFSET / 8) bytes that hold written bits, if any, then one
`SinkFlush`, empties BUF and sets OFFSET to 0. -/
def Obligations.FlushPublishesAndEmpties : Prop :=
  ∀ s : State, s.fault = false → s.mode = .write → s.answersOk (if s.offset = 0 then 1 else 2) →
    ∃ t, exec .flush s = .next t ∧
      t = { s with
        buf := t.buf, offset := 0, responses := s.responses ++ [responseWord 0 0 s.eos .write]
        sinkLog := s.sinkLog ++
          (if s.offset = 0 then [] else [.write (s.buf.firstBytes ((s.offset + 7) / 8)) .ok]) ++ [.flush .ok]
        answers := s.answers.drop (if s.offset = 0 then 1 else 2)
        drawCount := s.drawCount + (if s.offset = 0 then 1 else 2) } ∧
      t.sinkBytes = s.sinkBytes ++ s.buf.firstBytes ((s.offset + 7) / 8) ∧
      ∀ i, t.buf.read i = 0#8

/-- R89, R95: FLUSH stops at the first transaction that answers `err`: a failed sink write sends no `SinkFlush`. BUF, OFFSET
and VALID are left open (R101, notes/assumptions/3, 4). -/
def Obligations.FlushStopsAtTheFirstError : Prop :=
  ∀ (s : State) (x : Nat), s.fault = false → s.mode = .write →
    (s.offset ≠ 0 → s.answerAt 0 = .err x → ∃ t, exec .flush s = .next t ∧
      t = { s with
        buf := t.buf, offset := t.offset, valid := t.valid, fault := true, faultCode := 1#4
        responses := s.responses ++ [responseWord 1 0 s.eos .write]
        sinkLog := s.sinkLog ++ [.write (s.buf.firstBytes ((s.offset + 7) / 8)) (.err x)]
        answers := s.answers.tail, drawCount := s.drawCount + 1 }) ∧
    (s.offset ≠ 0 → s.answerAt 0 = .ok → s.answerAt 1 = .err x → ∃ t, exec .flush s = .next t ∧
      t = { s with
        buf := t.buf, offset := t.offset, valid := t.valid, fault := true, faultCode := 1#4
        responses := s.responses ++ [responseWord 1 0 s.eos .write]
        sinkLog := s.sinkLog ++ [.write (s.buf.firstBytes ((s.offset + 7) / 8)) .ok, .flush (.err x)]
        answers := s.answers.drop 2, drawCount := s.drawCount + 2 }) ∧
    (s.offset = 0 → s.answerAt 0 = .err x → ∃ t, exec .flush s = .next t ∧
      t = { s with
        buf := t.buf, offset := t.offset, valid := t.valid, fault := true, faultCode := 1#4
        responses := s.responses ++ [responseWord 1 0 s.eos .write]
        sinkLog := s.sinkLog ++ [.flush (.err x)]
        answers := s.answers.tail, drawCount := s.drawCount + 1 })

/-- R37, R53: after a FLUSH answered OK the sink holds every bit written before it, in order, the last partial byte padded
with zero bits at its top, and has received one `SinkFlush()` after the last of those bytes. -/
def Obligations.FlushPutsEveryWrittenBitInTheSink : Prop :=
  ∀ s t : State, s.Inv → s.fault = false → s.mode = .write → exec .flush s = .next t → t.fault = false →
    bytesBits t.sinkBytes = padToByte s.writtenBits ∧ t.writtenBits = bytesBits t.sinkBytes ∧
    ∃ bytes, t.sinkLog = s.sinkLog ++ bytes ++ [.flush .ok] ∧ ∀ a, .flush a ∉ bytes

/-- R93: a second FLUSH sends no bytes and one more `SinkFlush`; a write after a FLUSH starts a new byte. -/
def Obligations.FlushRealignsToAByte : Prop :=
  ∀ (s t : State) (b : Bool), s.Inv → s.fault = false → s.mode = .write → exec .flush s = .next t → t.fault = false →
    (t.answerAt 0 = .ok → ∃ u, exec .flush t = .next u ∧ u.fault = false ∧ u.sinkLog = t.sinkLog ++ [.flush .ok] ∧
      u.sinkBytes = t.sinkBytes) ∧
    ∃ u, exec (.writeBit b) t = .next u ∧ u.fault = false ∧ u.offset = 1 ∧ u.sinkLog = t.sinkLog ∧
      u.buf.read 0 = (if b then 1#8 else 0#8)

/-- R92: FLUSH, however it ends, makes no source transaction and changes neither MODE nor EOS, nor VALID unless it raises
IO_ERROR, after which R101 leaves it open (notes/assumptions/4). -/
def Obligations.FlushTouchesOnlyBufferAndSink : Prop :=
  ∀ s t : State, exec .flush s = .next t →
    t = { s with
      buf := t.buf, offset := t.offset, valid := t.valid, fault := t.fault, faultCode := t.faultCode
      responses := t.responses, sinkLog := t.sinkLog, answers := t.answers, drawCount := t.drawCount } ∧
    (t.valid = s.valid ∨ (s.fault = false ∧ t.fault = true ∧ t.faultCode = 1#4))

/-! Streams (20_memory.md R47, R48; 41_read.md R86; 70_reset_and_hazards.md R112) -/

/-- R47: two write-mode blocks that were given the same bits, whatever their CAP_BYTES and however they drained so far, stay
so under every command both answer OK, and after a FLUSH their sinks hold the same bytes. -/
def Obligations.WrittenStreamDoesNotDependOnCapacity : Prop :=
  ∀ (s t s' t' : State) (i : Instr), s.Inv → s'.Inv → s.fault = false → s'.fault = false →
    s.mode = .write → s'.mode = .write → s.writtenBits = s'.writtenBits →
    exec i s = .next t → exec i s' = .next t' → t.fault = false → t'.fault = false →
    t.writtenBits = t'.writtenBits ∧ (i = .flush → t.sinkBytes = t'.sinkBytes)

/-- R48: two read-mode blocks with the same bits still to return, whatever their CAP_BYTES, answer every command both
answer OK with the same word, and stay so. -/
def Obligations.ReadStreamDoesNotDependOnCapacity : Prop :=
  ∀ (s t s' t' : State) (i : Instr), s.Inv → s'.Inv → s.SourceInStep → s'.SourceInStep →
    s.fault = false → s'.fault = false → s.mode = .read → s'.mode = .read →
    s.unreadBits = s'.unreadBits → s.eos = s'.eos →
    exec i s = .next t → exec i s' = .next t' → t.fault = false → t'.fault = false →
    t.unreadBits = t'.unreadBits ∧ t.eos = t'.eos ∧ t.responses.getLast? = t'.responses.getLast?

/-- R86, R57: WRITE_BITS n, v in a writer, published by FLUSH, then READ_BITS n at the same stream position in a reader of
the sink's bytes gives back v[n−1:0], with STATUS 0 and without setting EOS. -/
def Obligations.FieldWrittenAndFlushedReadsBack : Prop :=
  ∀ (n : BitVec 6) (v : Data) (w0 w1 w2 r : State), n.toNat ≤ 32 →
    w0.Inv → w0.fault = false → w0.mode = .write →
    exec (.writeBits n v) w0 = .next w1 → exec .flush w1 = .next w2 → w2.fault = false →
    r.Inv → r.SourceInStep → r.fault = false → r.mode = .read → r.answersOk (r.turnovers n.toNat) →
    r.unreadBits = (bytesBits w2.sinkBytes).drop w0.writtenBits.length →
    ∃ t value, exec (.readBits n) r = .next t ∧ t.fault = false ∧ t.eos = r.eos ∧
      t.responses = r.responses ++ [responseWord 0 value r.eos .read] ∧
      ∀ k, value.getLsbD k = (decide (k < n.toNat) && v.getLsbD k)

/-- R112: a write-mode run that starts with nothing written and whose last command word is answered so that the run ends
well has in the sink, since it started, every bit written, padded to a byte. -/
def Obligations.GoodEndOfAWriteRunIsComplete : Prop :=
  ∀ (start s t : State) (w : CommandWord) (rest : List HostEvent) (bits : List Bool), s.Inv → s.fault = false →
    s.mode = .write → s.writtenBits = bytesBits start.sinkBytes ++ bits →
    s.inbox = .command w :: rest → step s = .next t → EndsWell w t →
    bytesBits (sinkSince start t) = padToByte bits
end

