-- ==== Sys2Proof/Laws/Encoding.lean ====
section
/-! SUPPORT. Command words and response words bit by bit: what stands where in `assemble` and in `responseWord`, and that a
word with zero reserved fields is the assembly of its own fields. -/

namespace Sys2Proof

theorem widthLegal_iff (n : BitVec 6) : widthLegal n = true ↔ n.toNat ≤ 32 := by simp [widthLegal, Config.maxN]

theorem getLsbD_assemble (op : BitVec 4) (n : BitVec 6) (data : Data) (i : Nat) : (assemble op n data).getLsbD i =
    (if i < 4 then op.getLsbD i
     else if 8 ≤ i ∧ i < 14 then n.getLsbD (i - 8)
     else if 32 ≤ i ∧ i < 64 then data.getLsbD (i - 32) else false) := by
  simp only [assemble, BitVec.getLsbD_or, BitVec.getLsbD_shiftLeft, BitVec.getLsbD_setWidth]
  have h4 : 4 ≤ i → op.getLsbD i = false := fun h => BitVec.getLsbD_of_ge _ _ h
  have h6 : 14 ≤ i → n.getLsbD (i - 8) = false := fun h => BitVec.getLsbD_of_ge _ _ (by omega)
  have h7 : 64 ≤ i → data.getLsbD (i - 32) = false := fun h => BitVec.getLsbD_of_ge _ _ (by omega)
  by_cases a : i < 4
  · have : i < 8 := by omega
    have b : i < 32 := by omega
    have c : i < 64 := by omega
    simp [a, b, c, this]
  by_cases b : 8 ≤ i ∧ i < 14
  · have : ¬ i < 8 := by omega
    have d : i < 32 := by omega
    have c : i < 64 := by omega
    simp [a, b, c, this, h4 (by omega), d]
    omega
  by_cases e : 32 ≤ i ∧ i < 64
  · have : ¬ i < 8 := by omega
    have d : ¬ i < 32 := by omega
    simp [a, b, e, this, h4 (by omega), d, h6 (by omega)]
    omega
  rw [h4 (by omega)]
  simp only [a, b, e, if_false]
  by_cases f : i < 8
  · have : i < 32 := by omega
    simp [f, this]
  rw [h6 (by omega)]
  by_cases g : i < 32
  · simp [g]
  · rw [h7 (by omega)]
    simp

/-- The five fields of an assembled word. -/
theorem fields_assemble (op : BitVec 4) (n : BitVec 6) (data : Data) :
    opField (assemble op n data) = op ∧ res0Field (assemble op n data) = 0 ∧
    nField (assemble op n data) = n ∧ res1Field (assemble op n data) = 0 ∧ dataField (assemble op n data) = data := by
  refine ⟨?_, ?_, ?_, ?_, ?_⟩ <;> apply BitVec.eq_of_getLsbD_eq <;> intro i hi <;>
    simp only [opField, res0Field, nField, res1Field, dataField, BitVec.getLsbD_extractLsb', getLsbD_assemble, hi,
      decide_true, Bool.true_and]
  · simp [hi]
  · rw [if_neg (by omega), if_neg (by omega), if_neg (by omega)]; simp
  · rw [if_neg (by omega), if_pos (by omega)]; congr 1; omega
  · rw [if_neg (by omega), if_neg (by omega), if_neg (by omega)]; simp
  · rw [if_neg (by omega), if_neg (by omega), if_pos (by omega)]; congr 1; omega

/-- A word is the assembly of its own fields exactly where its reserved fields are 0. -/
theorem eq_assemble_iff (w : CommandWord) :
    w = assemble (opField w) (nField w) (dataField w) ↔ res0Field w = 0 ∧ res1Field w = 0 := by
  constructor
  · intro h
    rw [h]
    exact ⟨(fields_assemble _ _ _).2.1, (fields_assemble _ _ _).2.2.2.1⟩
  · rintro ⟨h0, h1⟩
    apply BitVec.eq_of_getLsbD_eq
    intro i hi
    rw [getLsbD_assemble]
    simp only [opField, nField, dataField, BitVec.getLsbD_extractLsb']
    split
    · simp_all
    split
    · have : i - 8 < 6 := by omega
      simp [this]; congr 1; omega
    split
    · have : i - 32 < 32 := by omega
      simp [this]; congr 1; omega
    by_cases h : i < 8
    · have := congrArg (fun v => v.getLsbD (i - 4)) h0
      simp only [res0Field, BitVec.getLsbD_extractLsb'] at this
      rw [show 4 + (i - 4) = i by omega] at this
      have h2 : i - 4 < 4 := by omega
      simpa [h2] using this
    · have := congrArg (fun v => v.getLsbD (i - 14)) h1
      simp only [res1Field, BitVec.getLsbD_extractLsb'] at this
      rw [show 14 + (i - 14) = i by omega] at this
      have h2 : i - 14 < 18 := by omega
      simpa [h2] using this

theorem Machine.getLsbD_responseWord (status : BitVec 4) (data : Data) (eos : Bool) (mode : Machine.Mode) (i : Nat) :
    (Machine.responseWord status data eos mode).getLsbD i =
    (if i < 32 then data.getLsbD i else if i < 36 then status.getLsbD (i - 32)
     else if i = 36 then eos else if i = 37 then mode.bit else false) := by
  simp only [Machine.responseWord, BitVec.getLsbD_or, BitVec.getLsbD_shiftLeft, BitVec.getLsbD_setWidth,
    BitVec.getLsbD_ofBool]
  by_cases a : i < 32
  · have : i < 36 := by omega
    have : i < 37 := by omega
    have : i < 64 := by omega
    simp_all
  have h1 : data.getLsbD i = false := BitVec.getLsbD_of_ge _ _ (by omega)
  by_cases b : i < 36
  · have : i < 37 := by omega
    have : i - 32 < 64 := by omega
    have : i < 64 := by omega
    simp_all
  have h2 : status.getLsbD (i - 32) = false := BitVec.getLsbD_of_ge _ _ (by omega)
  by_cases c : i = 36
  · subst c; simp
  by_cases d : i = 37
  · subst d; simp
  have : ¬ i - 36 = 0 := by omega
  have : ¬ i - 37 = 0 := by omega
  simp_all

end Sys2Proof
end

