-- ==== Sys2Proof/Laws/State.lean ====
section
/-! SUPPORT. One lemma per field per named update of State, true by definition, so that no proof unfolds an update. -/

namespace Sys2Proof.Machine

variable (s : State)

/-! `State.drawn` -/

@[simp] theorem State.drawn_capBytes : s.drawn.capBytes = s.capBytes := rfl
@[simp] theorem State.drawn_mode : s.drawn.mode = s.mode := rfl
@[simp] theorem State.drawn_buf : s.drawn.buf = s.buf := rfl
@[simp] theorem State.drawn_offset : s.drawn.offset = s.offset := rfl
@[simp] theorem State.drawn_valid : s.drawn.valid = s.valid := rfl
@[simp] theorem State.drawn_eos : s.drawn.eos = s.eos := rfl
@[simp] theorem State.drawn_fault : s.drawn.fault = s.fault := rfl
@[simp] theorem State.drawn_faultCode : s.drawn.faultCode = s.faultCode := rfl
@[simp] theorem State.drawn_modeCfg : s.drawn.modeCfg = s.modeCfg := rfl
@[simp] theorem State.drawn_inbox : s.drawn.inbox = s.inbox := rfl
@[simp] theorem State.drawn_responses : s.drawn.responses = s.responses := rfl
@[simp] theorem State.drawn_sinkLog : s.drawn.sinkLog = s.sinkLog := rfl
@[simp] theorem State.drawn_source : s.drawn.source = s.source := rfl
@[simp] theorem State.drawn_sourcePos : s.drawn.sourcePos = s.sourcePos := rfl
@[simp] theorem State.drawn_sourceLog : s.drawn.sourceLog = s.sourceLog := rfl
@[simp] theorem State.drawn_answers : s.drawn.answers = s.answers.tail := rfl
@[simp] theorem State.drawn_drawCount : s.drawn.drawCount = s.drawCount + 1 := rfl

/-! `State.sinkSent` -/

@[simp] theorem State.sinkSent_capBytes (t : SinkTransaction) : (s.sinkSent t).capBytes = s.capBytes := rfl
@[simp] theorem State.sinkSent_mode (t : SinkTransaction) : (s.sinkSent t).mode = s.mode := rfl
@[simp] theorem State.sinkSent_buf (t : SinkTransaction) : (s.sinkSent t).buf = s.buf := rfl
@[simp] theorem State.sinkSent_offset (t : SinkTransaction) : (s.sinkSent t).offset = s.offset := rfl
@[simp] theorem State.sinkSent_valid (t : SinkTransaction) : (s.sinkSent t).valid = s.valid := rfl
@[simp] theorem State.sinkSent_eos (t : SinkTransaction) : (s.sinkSent t).eos = s.eos := rfl
@[simp] theorem State.sinkSent_fault (t : SinkTransaction) : (s.sinkSent t).fault = s.fault := rfl
@[simp] theorem State.sinkSent_faultCode (t : SinkTransaction) : (s.sinkSent t).faultCode = s.faultCode := rfl
@[simp] theorem State.sinkSent_modeCfg (t : SinkTransaction) : (s.sinkSent t).modeCfg = s.modeCfg := rfl
@[simp] theorem State.sinkSent_inbox (t : SinkTransaction) : (s.sinkSent t).inbox = s.inbox := rfl
@[simp] theorem State.sinkSent_responses (t : SinkTransaction) : (s.sinkSent t).responses = s.responses := rfl
@[simp] theorem State.sinkSent_sinkLog (t : SinkTransaction) : (s.sinkSent t).sinkLog = s.sinkLog ++ [t] := rfl
@[simp] theorem State.sinkSent_source (t : SinkTransaction) : (s.sinkSent t).source = s.source := rfl
@[simp] theorem State.sinkSent_sourcePos (t : SinkTransaction) : (s.sinkSent t).sourcePos = s.sourcePos := rfl
@[simp] theorem State.sinkSent_sourceLog (t : SinkTransaction) : (s.sinkSent t).sourceLog = s.sourceLog := rfl
@[simp] theorem State.sinkSent_answers (t : SinkTransaction) : (s.sinkSent t).answers = s.answers := rfl
@[simp] theorem State.sinkSent_drawCount (t : SinkTransaction) : (s.sinkSent t).drawCount = s.drawCount := rfl

/-! `State.sourceAsked` -/

@[simp] theorem State.sourceAsked_capBytes (t : SourceTransaction) (n : Nat) :
    (s.sourceAsked t n).capBytes = s.capBytes := rfl
@[simp] theorem State.sourceAsked_mode (t : SourceTransaction) (n : Nat) : (s.sourceAsked t n).mode = s.mode := rfl
@[simp] theorem State.sourceAsked_buf (t : SourceTransaction) (n : Nat) : (s.sourceAsked t n).buf = s.buf := rfl
@[simp] theorem State.sourceAsked_offset (t : SourceTransaction) (n : Nat) :
    (s.sourceAsked t n).offset = s.offset := rfl
@[simp] theorem State.sourceAsked_valid (t : SourceTransaction) (n : Nat) : (s.sourceAsked t n).valid = s.valid := rfl
@[simp] theorem State.sourceAsked_eos (t : SourceTransaction) (n : Nat) : (s.sourceAsked t n).eos = s.eos := rfl
@[simp] theorem State.sourceAsked_fault (t : SourceTransaction) (n : Nat) : (s.sourceAsked t n).fault = s.fault := rfl
@[simp] theorem State.sourceAsked_faultCode (t : SourceTransaction) (n : Nat) :
    (s.sourceAsked t n).faultCode = s.faultCode := rfl
@[simp] theorem State.sourceAsked_modeCfg (t : SourceTransaction) (n : Nat) :
    (s.sourceAsked t n).modeCfg = s.modeCfg := rfl
@[simp] theorem State.sourceAsked_inbox (t : SourceTransaction) (n : Nat) : (s.sourceAsked t n).inbox = s.inbox := rfl
@[simp] theorem State.sourceAsked_responses (t : SourceTransaction) (n : Nat) :
    (s.sourceAsked t n).responses = s.responses := rfl
@[simp] theorem State.sourceAsked_sinkLog (t : SourceTransaction) (n : Nat) :
    (s.sourceAsked t n).sinkLog = s.sinkLog := rfl
@[simp] theorem State.sourceAsked_source (t : SourceTransaction) (n : Nat) :
    (s.sourceAsked t n).source = s.source := rfl
@[simp] theorem State.sourceAsked_sourcePos (t : SourceTransaction) (n : Nat) :
    (s.sourceAsked t n).sourcePos = s.sourcePos + n := rfl
@[simp] theorem State.sourceAsked_sourceLog (t : SourceTransaction) (n : Nat) :
    (s.sourceAsked t n).sourceLog = s.sourceLog ++ [t] := rfl
@[simp] theorem State.sourceAsked_answers (t : SourceTransaction) (n : Nat) :
    (s.sourceAsked t n).answers = s.answers := rfl
@[simp] theorem State.sourceAsked_drawCount (t : SourceTransaction) (n : Nat) :
    (s.sourceAsked t n).drawCount = s.drawCount := rfl

/-! `State.emptied` -/

@[simp] theorem State.emptied_capBytes : s.emptied.capBytes = s.capBytes := rfl
@[simp] theorem State.emptied_mode : s.emptied.mode = s.mode := rfl
@[simp] theorem State.emptied_buf : s.emptied.buf = [] := rfl
@[simp] theorem State.emptied_offset : s.emptied.offset = 0 := rfl
@[simp] theorem State.emptied_valid : s.emptied.valid = s.valid := rfl
@[simp] theorem State.emptied_eos : s.emptied.eos = s.eos := rfl
@[simp] theorem State.emptied_fault : s.emptied.fault = s.fault := rfl
@[simp] theorem State.emptied_faultCode : s.emptied.faultCode = s.faultCode := rfl
@[simp] theorem State.emptied_modeCfg : s.emptied.modeCfg = s.modeCfg := rfl
@[simp] theorem State.emptied_inbox : s.emptied.inbox = s.inbox := rfl
@[simp] theorem State.emptied_responses : s.emptied.responses = s.responses := rfl
@[simp] theorem State.emptied_sinkLog : s.emptied.sinkLog = s.sinkLog := rfl
@[simp] theorem State.emptied_source : s.emptied.source = s.source := rfl
@[simp] theorem State.emptied_sourcePos : s.emptied.sourcePos = s.sourcePos := rfl
@[simp] theorem State.emptied_sourceLog : s.emptied.sourceLog = s.sourceLog := rfl
@[simp] theorem State.emptied_answers : s.emptied.answers = s.answers := rfl
@[simp] theorem State.emptied_drawCount : s.emptied.drawCount = s.drawCount := rfl

/-! `State.storeBit` -/

@[simp] theorem State.storeBit_capBytes (b : Bool) : (s.storeBit b).capBytes = s.capBytes := rfl
@[simp] theorem State.storeBit_mode (b : Bool) : (s.storeBit b).mode = s.mode := rfl
@[simp] theorem State.storeBit_buf (b : Bool) : (s.storeBit b).buf = s.buf.setBit s.offset b := rfl
@[simp] theorem State.storeBit_offset (b : Bool) : (s.storeBit b).offset = s.offset + 1 := rfl
@[simp] theorem State.storeBit_valid (b : Bool) : (s.storeBit b).valid = s.valid := rfl
@[simp] theorem State.storeBit_eos (b : Bool) : (s.storeBit b).eos = s.eos := rfl
@[simp] theorem State.storeBit_fault (b : Bool) : (s.storeBit b).fault = s.fault := rfl
@[simp] theorem State.storeBit_faultCode (b : Bool) : (s.storeBit b).faultCode = s.faultCode := rfl
@[simp] theorem State.storeBit_modeCfg (b : Bool) : (s.storeBit b).modeCfg = s.modeCfg := rfl
@[simp] theorem State.storeBit_inbox (b : Bool) : (s.storeBit b).inbox = s.inbox := rfl
@[simp] theorem State.storeBit_responses (b : Bool) : (s.storeBit b).responses = s.responses := rfl
@[simp] theorem State.storeBit_sinkLog (b : Bool) : (s.storeBit b).sinkLog = s.sinkLog := rfl
@[simp] theorem State.storeBit_source (b : Bool) : (s.storeBit b).source = s.source := rfl
@[simp] theorem State.storeBit_sourcePos (b : Bool) : (s.storeBit b).sourcePos = s.sourcePos := rfl
@[simp] theorem State.storeBit_sourceLog (b : Bool) : (s.storeBit b).sourceLog = s.sourceLog := rfl
@[simp] theorem State.storeBit_answers (b : Bool) : (s.storeBit b).answers = s.answers := rfl
@[simp] theorem State.storeBit_drawCount (b : Bool) : (s.storeBit b).drawCount = s.drawCount := rfl

/-! `State.refilled` -/

@[simp] theorem State.refilled_capBytes (bytes : List Byte) : (s.refilled bytes).capBytes = s.capBytes := rfl
@[simp] theorem State.refilled_mode (bytes : List Byte) : (s.refilled bytes).mode = s.mode := rfl
@[simp] theorem State.refilled_buf (bytes : List Byte) : (s.refilled bytes).buf = Memory.ofBytes 0 bytes := rfl
@[simp] theorem State.refilled_offset (bytes : List Byte) : (s.refilled bytes).offset = 0 := rfl
@[simp] theorem State.refilled_valid (bytes : List Byte) : (s.refilled bytes).valid = bytes.length := rfl
@[simp] theorem State.refilled_eos (bytes : List Byte) : (s.refilled bytes).eos = s.eos := rfl
@[simp] theorem State.refilled_fault (bytes : List Byte) : (s.refilled bytes).fault = s.fault := rfl
@[simp] theorem State.refilled_faultCode (bytes : List Byte) : (s.refilled bytes).faultCode = s.faultCode := rfl
@[simp] theorem State.refilled_modeCfg (bytes : List Byte) : (s.refilled bytes).modeCfg = s.modeCfg := rfl
@[simp] theorem State.refilled_inbox (bytes : List Byte) : (s.refilled bytes).inbox = s.inbox := rfl
@[simp] theorem State.refilled_responses (bytes : List Byte) : (s.refilled bytes).responses = s.responses := rfl
@[simp] theorem State.refilled_sinkLog (bytes : List Byte) : (s.refilled bytes).sinkLog = s.sinkLog := rfl
@[simp] theorem State.refilled_source (bytes : List Byte) : (s.refilled bytes).source = s.source := rfl
@[simp] theorem State.refilled_sourcePos (bytes : List Byte) : (s.refilled bytes).sourcePos = s.sourcePos := rfl
@[simp] theorem State.refilled_sourceLog (bytes : List Byte) : (s.refilled bytes).sourceLog = s.sourceLog := rfl
@[simp] theorem State.refilled_answers (bytes : List Byte) : (s.refilled bytes).answers = s.answers := rfl
@[simp] theorem State.refilled_drawCount (bytes : List Byte) : (s.refilled bytes).drawCount = s.drawCount := rfl

/-! `State.bitTaken` -/

@[simp] theorem State.bitTaken_capBytes : s.bitTaken.capBytes = s.capBytes := rfl
@[simp] theorem State.bitTaken_mode : s.bitTaken.mode = s.mode := rfl
@[simp] theorem State.bitTaken_buf : s.bitTaken.buf = s.buf := rfl
@[simp] theorem State.bitTaken_offset : s.bitTaken.offset = s.offset + 1 := rfl
@[simp] theorem State.bitTaken_valid : s.bitTaken.valid = s.valid := rfl
@[simp] theorem State.bitTaken_eos : s.bitTaken.eos = eosAfter s.eos s.valid s.offset := rfl
@[simp] theorem State.bitTaken_fault : s.bitTaken.fault = s.fault := rfl
@[simp] theorem State.bitTaken_faultCode : s.bitTaken.faultCode = s.faultCode := rfl
@[simp] theorem State.bitTaken_modeCfg : s.bitTaken.modeCfg = s.modeCfg := rfl
@[simp] theorem State.bitTaken_inbox : s.bitTaken.inbox = s.inbox := rfl
@[simp] theorem State.bitTaken_responses : s.bitTaken.responses = s.responses := rfl
@[simp] theorem State.bitTaken_sinkLog : s.bitTaken.sinkLog = s.sinkLog := rfl
@[simp] theorem State.bitTaken_source : s.bitTaken.source = s.source := rfl
@[simp] theorem State.bitTaken_sourcePos : s.bitTaken.sourcePos = s.sourcePos := rfl
@[simp] theorem State.bitTaken_sourceLog : s.bitTaken.sourceLog = s.sourceLog := rfl
@[simp] theorem State.bitTaken_answers : s.bitTaken.answers = s.answers := rfl
@[simp] theorem State.bitTaken_drawCount : s.bitTaken.drawCount = s.drawCount := rfl

/-! `State.respond` -/

@[simp] theorem State.respond_capBytes (c : BitVec 4) (d : Data) : (s.respond c d).capBytes = s.capBytes := rfl
@[simp] theorem State.respond_mode (c : BitVec 4) (d : Data) : (s.respond c d).mode = s.mode := rfl
@[simp] theorem State.respond_buf (c : BitVec 4) (d : Data) : (s.respond c d).buf = s.buf := rfl
@[simp] theorem State.respond_offset (c : BitVec 4) (d : Data) : (s.respond c d).offset = s.offset := rfl
@[simp] theorem State.respond_valid (c : BitVec 4) (d : Data) : (s.respond c d).valid = s.valid := rfl
@[simp] theorem State.respond_eos (c : BitVec 4) (d : Data) : (s.respond c d).eos = s.eos := rfl
@[simp] theorem State.respond_fault (c : BitVec 4) (d : Data) : (s.respond c d).fault = s.fault := rfl
@[simp] theorem State.respond_faultCode (c : BitVec 4) (d : Data) : (s.respond c d).faultCode = s.faultCode := rfl
@[simp] theorem State.respond_modeCfg (c : BitVec 4) (d : Data) : (s.respond c d).modeCfg = s.modeCfg := rfl
@[simp] theorem State.respond_inbox (c : BitVec 4) (d : Data) : (s.respond c d).inbox = s.inbox := rfl
@[simp] theorem State.respond_responses (c : BitVec 4) (d : Data) :
    (s.respond c d).responses = s.responses ++ [responseWord c d s.eos s.mode] := rfl
@[simp] theorem State.respond_sinkLog (c : BitVec 4) (d : Data) : (s.respond c d).sinkLog = s.sinkLog := rfl
@[simp] theorem State.respond_source (c : BitVec 4) (d : Data) : (s.respond c d).source = s.source := rfl
@[simp] theorem State.respond_sourcePos (c : BitVec 4) (d : Data) : (s.respond c d).sourcePos = s.sourcePos := rfl
@[simp] theorem State.respond_sourceLog (c : BitVec 4) (d : Data) : (s.respond c d).sourceLog = s.sourceLog := rfl
@[simp] theorem State.respond_answers (c : BitVec 4) (d : Data) : (s.respond c d).answers = s.answers := rfl
@[simp] theorem State.respond_drawCount (c : BitVec 4) (d : Data) : (s.respond c d).drawCount = s.drawCount := rfl

/-! `State.faulted` -/

@[simp] theorem State.faulted_capBytes (f : FaultKind) : (s.faulted f).capBytes = s.capBytes := rfl
@[simp] theorem State.faulted_mode (f : FaultKind) : (s.faulted f).mode = s.mode := rfl
@[simp] theorem State.faulted_buf (f : FaultKind) : (s.faulted f).buf = s.buf := rfl
@[simp] theorem State.faulted_offset (f : FaultKind) : (s.faulted f).offset = s.offset := rfl
@[simp] theorem State.faulted_valid (f : FaultKind) : (s.faulted f).valid = s.valid := rfl
@[simp] theorem State.faulted_eos (f : FaultKind) : (s.faulted f).eos = s.eos := rfl
@[simp] theorem State.faulted_fault (f : FaultKind) : (s.faulted f).fault = true := rfl
@[simp] theorem State.faulted_faultCode (f : FaultKind) : (s.faulted f).faultCode = f.code := rfl
@[simp] theorem State.faulted_modeCfg (f : FaultKind) : (s.faulted f).modeCfg = s.modeCfg := rfl
@[simp] theorem State.faulted_inbox (f : FaultKind) : (s.faulted f).inbox = s.inbox := rfl
@[simp] theorem State.faulted_responses (f : FaultKind) : (s.faulted f).responses = s.responses := rfl
@[simp] theorem State.faulted_sinkLog (f : FaultKind) : (s.faulted f).sinkLog = s.sinkLog := rfl
@[simp] theorem State.faulted_source (f : FaultKind) : (s.faulted f).source = s.source := rfl
@[simp] theorem State.faulted_sourcePos (f : FaultKind) : (s.faulted f).sourcePos = s.sourcePos := rfl
@[simp] theorem State.faulted_sourceLog (f : FaultKind) : (s.faulted f).sourceLog = s.sourceLog := rfl
@[simp] theorem State.faulted_answers (f : FaultKind) : (s.faulted f).answers = s.answers := rfl
@[simp] theorem State.faulted_drawCount (f : FaultKind) : (s.faulted f).drawCount = s.drawCount := rfl

/-! `State.raise` -/

@[simp] theorem State.raise_capBytes (f : FaultKind) : (s.raise f).capBytes = s.capBytes := rfl
@[simp] theorem State.raise_mode (f : FaultKind) : (s.raise f).mode = s.mode := rfl
@[simp] theorem State.raise_buf (f : FaultKind) : (s.raise f).buf = s.buf := rfl
@[simp] theorem State.raise_offset (f : FaultKind) : (s.raise f).offset = s.offset := rfl
@[simp] theorem State.raise_valid (f : FaultKind) : (s.raise f).valid = s.valid := rfl
@[simp] theorem State.raise_eos (f : FaultKind) : (s.raise f).eos = s.eos := rfl
@[simp] theorem State.raise_fault (f : FaultKind) : (s.raise f).fault = true := rfl
@[simp] theorem State.raise_faultCode (f : FaultKind) : (s.raise f).faultCode = f.code := rfl
@[simp] theorem State.raise_modeCfg (f : FaultKind) : (s.raise f).modeCfg = s.modeCfg := rfl
@[simp] theorem State.raise_inbox (f : FaultKind) : (s.raise f).inbox = s.inbox := rfl
@[simp] theorem State.raise_responses (f : FaultKind) :
    (s.raise f).responses = s.responses ++ [responseWord f.code 0 s.eos s.mode] := rfl
@[simp] theorem State.raise_sinkLog (f : FaultKind) : (s.raise f).sinkLog = s.sinkLog := rfl
@[simp] theorem State.raise_source (f : FaultKind) : (s.raise f).source = s.source := rfl
@[simp] theorem State.raise_sourcePos (f : FaultKind) : (s.raise f).sourcePos = s.sourcePos := rfl
@[simp] theorem State.raise_sourceLog (f : FaultKind) : (s.raise f).sourceLog = s.sourceLog := rfl
@[simp] theorem State.raise_answers (f : FaultKind) : (s.raise f).answers = s.answers := rfl
@[simp] theorem State.raise_drawCount (f : FaultKind) : (s.raise f).drawCount = s.drawCount := rfl

/-! `State.scrambled` -/

@[simp] theorem State.scrambled_capBytes : s.scrambled.capBytes = s.capBytes := rfl
@[simp] theorem State.scrambled_mode : s.scrambled.mode = s.mode := rfl
@[simp] theorem State.scrambled_buf :
    s.scrambled.buf = Memory.ofBytes 0 ((List.range s.capBytes).map (Config.freeByte s.drawCount)) := rfl
@[simp] theorem State.scrambled_offset : s.scrambled.offset = min (Config.freeOffset s.drawCount) s.capBits := rfl
@[simp] theorem State.scrambled_valid : s.scrambled.valid = min (Config.freeValid s.drawCount) s.capBytes := rfl
@[simp] theorem State.scrambled_eos : s.scrambled.eos = s.eos := rfl
@[simp] theorem State.scrambled_fault : s.scrambled.fault = s.fault := rfl
@[simp] theorem State.scrambled_faultCode : s.scrambled.faultCode = s.faultCode := rfl
@[simp] theorem State.scrambled_modeCfg : s.scrambled.modeCfg = s.modeCfg := rfl
@[simp] theorem State.scrambled_inbox : s.scrambled.inbox = s.inbox := rfl
@[simp] theorem State.scrambled_responses : s.scrambled.responses = s.responses := rfl
@[simp] theorem State.scrambled_sinkLog : s.scrambled.sinkLog = s.sinkLog := rfl
@[simp] theorem State.scrambled_source : s.scrambled.source = s.source := rfl
@[simp] theorem State.scrambled_sourcePos : s.scrambled.sourcePos = s.sourcePos := rfl
@[simp] theorem State.scrambled_sourceLog : s.scrambled.sourceLog = s.sourceLog := rfl
@[simp] theorem State.scrambled_answers : s.scrambled.answers = s.answers := rfl
@[simp] theorem State.scrambled_drawCount : s.scrambled.drawCount = s.drawCount := rfl

/-! `State.resetBlock` -/

@[simp] theorem State.resetBlock_capBytes : s.resetBlock.capBytes = s.capBytes := rfl
@[simp] theorem State.resetBlock_mode : s.resetBlock.mode = s.modeCfg := rfl
@[simp] theorem State.resetBlock_buf : s.resetBlock.buf = [] := rfl
@[simp] theorem State.resetBlock_offset : s.resetBlock.offset = (match s.modeCfg with
      | .write => 0
      | .read => s.capBits) := rfl
@[simp] theorem State.resetBlock_valid : s.resetBlock.valid = 0 := rfl
@[simp] theorem State.resetBlock_eos : s.resetBlock.eos = false := rfl
@[simp] theorem State.resetBlock_fault : s.resetBlock.fault = false := rfl
@[simp] theorem State.resetBlock_faultCode : s.resetBlock.faultCode = 0 := rfl
@[simp] theorem State.resetBlock_modeCfg : s.resetBlock.modeCfg = s.modeCfg := rfl
@[simp] theorem State.resetBlock_inbox : s.resetBlock.inbox = s.inbox := rfl
@[simp] theorem State.resetBlock_responses : s.resetBlock.responses = s.responses := rfl
@[simp] theorem State.resetBlock_sinkLog : s.resetBlock.sinkLog = s.sinkLog := rfl
@[simp] theorem State.resetBlock_source : s.resetBlock.source = s.source := rfl
@[simp] theorem State.resetBlock_sourcePos : s.resetBlock.sourcePos = s.sourcePos := rfl
@[simp] theorem State.resetBlock_sourceLog : s.resetBlock.sourceLog = s.sourceLog := rfl
@[simp] theorem State.resetBlock_answers : s.resetBlock.answers = s.answers := rfl
@[simp] theorem State.resetBlock_drawCount : s.resetBlock.drawCount = s.drawCount := rfl

/-! `State.modeCfgDriven` -/

@[simp] theorem State.modeCfgDriven_capBytes (m : Mode) : (s.modeCfgDriven m).capBytes = s.capBytes := rfl
@[simp] theorem State.modeCfgDriven_mode (m : Mode) : (s.modeCfgDriven m).mode = s.mode := rfl
@[simp] theorem State.modeCfgDriven_buf (m : Mode) : (s.modeCfgDriven m).buf = s.buf := rfl
@[simp] theorem State.modeCfgDriven_offset (m : Mode) : (s.modeCfgDriven m).offset = s.offset := rfl
@[simp] theorem State.modeCfgDriven_valid (m : Mode) : (s.modeCfgDriven m).valid = s.valid := rfl
@[simp] theorem State.modeCfgDriven_eos (m : Mode) : (s.modeCfgDriven m).eos = s.eos := rfl
@[simp] theorem State.modeCfgDriven_fault (m : Mode) : (s.modeCfgDriven m).fault = s.fault := rfl
@[simp] theorem State.modeCfgDriven_faultCode (m : Mode) : (s.modeCfgDriven m).faultCode = s.faultCode := rfl
@[simp] theorem State.modeCfgDriven_modeCfg (m : Mode) : (s.modeCfgDriven m).modeCfg = m := rfl
@[simp] theorem State.modeCfgDriven_inbox (m : Mode) : (s.modeCfgDriven m).inbox = s.inbox := rfl
@[simp] theorem State.modeCfgDriven_responses (m : Mode) : (s.modeCfgDriven m).responses = s.responses := rfl
@[simp] theorem State.modeCfgDriven_sinkLog (m : Mode) : (s.modeCfgDriven m).sinkLog = s.sinkLog := rfl
@[simp] theorem State.modeCfgDriven_source (m : Mode) : (s.modeCfgDriven m).source = s.source := rfl
@[simp] theorem State.modeCfgDriven_sourcePos (m : Mode) : (s.modeCfgDriven m).sourcePos = s.sourcePos := rfl
@[simp] theorem State.modeCfgDriven_sourceLog (m : Mode) : (s.modeCfgDriven m).sourceLog = s.sourceLog := rfl
@[simp] theorem State.modeCfgDriven_answers (m : Mode) : (s.modeCfgDriven m).answers = s.answers := rfl
@[simp] theorem State.modeCfgDriven_drawCount (m : Mode) : (s.modeCfgDriven m).drawCount = s.drawCount := rfl

/-! `State.sinkAttached` -/

@[simp] theorem State.sinkAttached_capBytes : s.sinkAttached.capBytes = s.capBytes := rfl
@[simp] theorem State.sinkAttached_mode : s.sinkAttached.mode = s.mode := rfl
@[simp] theorem State.sinkAttached_buf : s.sinkAttached.buf = s.buf := rfl
@[simp] theorem State.sinkAttached_offset : s.sinkAttached.offset = s.offset := rfl
@[simp] theorem State.sinkAttached_valid : s.sinkAttached.valid = s.valid := rfl
@[simp] theorem State.sinkAttached_eos : s.sinkAttached.eos = s.eos := rfl
@[simp] theorem State.sinkAttached_fault : s.sinkAttached.fault = s.fault := rfl
@[simp] theorem State.sinkAttached_faultCode : s.sinkAttached.faultCode = s.faultCode := rfl
@[simp] theorem State.sinkAttached_modeCfg : s.sinkAttached.modeCfg = s.modeCfg := rfl
@[simp] theorem State.sinkAttached_inbox : s.sinkAttached.inbox = s.inbox := rfl
@[simp] theorem State.sinkAttached_responses : s.sinkAttached.responses = s.responses := rfl
@[simp] theorem State.sinkAttached_sinkLog : s.sinkAttached.sinkLog = [] := rfl
@[simp] theorem State.sinkAttached_source : s.sinkAttached.source = s.source := rfl
@[simp] theorem State.sinkAttached_sourcePos : s.sinkAttached.sourcePos = s.sourcePos := rfl
@[simp] theorem State.sinkAttached_sourceLog : s.sinkAttached.sourceLog = s.sourceLog := rfl
@[simp] theorem State.sinkAttached_answers : s.sinkAttached.answers = s.answers := rfl
@[simp] theorem State.sinkAttached_drawCount : s.sinkAttached.drawCount = s.drawCount := rfl

/-! `State.sourceAttached` -/

@[simp] theorem State.sourceAttached_capBytes (bytes : List Byte) :
    (s.sourceAttached bytes).capBytes = s.capBytes := rfl
@[simp] theorem State.sourceAttached_mode (bytes : List Byte) : (s.sourceAttached bytes).mode = s.mode := rfl
@[simp] theorem State.sourceAttached_buf (bytes : List Byte) : (s.sourceAttached bytes).buf = s.buf := rfl
@[simp] theorem State.sourceAttached_offset (bytes : List Byte) : (s.sourceAttached bytes).offset = s.offset := rfl
@[simp] theorem State.sourceAttached_valid (bytes : List Byte) : (s.sourceAttached bytes).valid = s.valid := rfl
@[simp] theorem State.sourceAttached_eos (bytes : List Byte) : (s.sourceAttached bytes).eos = s.eos := rfl
@[simp] theorem State.sourceAttached_fault (bytes : List Byte) : (s.sourceAttached bytes).fault = s.fault := rfl
@[simp] theorem State.sourceAttached_faultCode (bytes : List Byte) :
    (s.sourceAttached bytes).faultCode = s.faultCode := rfl
@[simp] theorem State.sourceAttached_modeCfg (bytes : List Byte) : (s.sourceAttached bytes).modeCfg = s.modeCfg := rfl
@[simp] theorem State.sourceAttached_inbox (bytes : List Byte) : (s.sourceAttached bytes).inbox = s.inbox := rfl
@[simp] theorem State.sourceAttached_responses (bytes : List Byte) :
    (s.sourceAttached bytes).responses = s.responses := rfl
@[simp] theorem State.sourceAttached_sinkLog (bytes : List Byte) : (s.sourceAttached bytes).sinkLog = s.sinkLog := rfl
@[simp] theorem State.sourceAttached_source (bytes : List Byte) : (s.sourceAttached bytes).source = bytes := rfl
@[simp] theorem State.sourceAttached_sourcePos (bytes : List Byte) : (s.sourceAttached bytes).sourcePos = 0 := rfl
@[simp] theorem State.sourceAttached_sourceLog (bytes : List Byte) : (s.sourceAttached bytes).sourceLog = [] := rfl
@[simp] theorem State.sourceAttached_answers (bytes : List Byte) : (s.sourceAttached bytes).answers = s.answers := rfl
@[simp] theorem State.sourceAttached_drawCount (bytes : List Byte) :
    (s.sourceAttached bytes).drawCount = s.drawCount := rfl

/-! `State.commanded` -/

@[simp] theorem State.commanded_capBytes (w : CommandWord) : (s.commanded w).capBytes = s.capBytes := rfl
@[simp] theorem State.commanded_mode (w : CommandWord) : (s.commanded w).mode = s.mode := rfl
@[simp] theorem State.commanded_buf (w : CommandWord) : (s.commanded w).buf = s.buf := rfl
@[simp] theorem State.commanded_offset (w : CommandWord) : (s.commanded w).offset = s.offset := rfl
@[simp] theorem State.commanded_valid (w : CommandWord) : (s.commanded w).valid = s.valid := rfl
@[simp] theorem State.commanded_eos (w : CommandWord) : (s.commanded w).eos = s.eos := rfl
@[simp] theorem State.commanded_fault (w : CommandWord) : (s.commanded w).fault = s.fault := rfl
@[simp] theorem State.commanded_faultCode (w : CommandWord) : (s.commanded w).faultCode = s.faultCode := rfl
@[simp] theorem State.commanded_modeCfg (w : CommandWord) : (s.commanded w).modeCfg = s.modeCfg := rfl
@[simp] theorem State.commanded_inbox (w : CommandWord) : (s.commanded w).inbox = .command w :: s.inbox := rfl
@[simp] theorem State.commanded_responses (w : CommandWord) : (s.commanded w).responses = s.responses := rfl
@[simp] theorem State.commanded_sinkLog (w : CommandWord) : (s.commanded w).sinkLog = s.sinkLog := rfl
@[simp] theorem State.commanded_source (w : CommandWord) : (s.commanded w).source = s.source := rfl
@[simp] theorem State.commanded_sourcePos (w : CommandWord) : (s.commanded w).sourcePos = s.sourcePos := rfl
@[simp] theorem State.commanded_sourceLog (w : CommandWord) : (s.commanded w).sourceLog = s.sourceLog := rfl
@[simp] theorem State.commanded_answers (w : CommandWord) : (s.commanded w).answers = s.answers := rfl
@[simp] theorem State.commanded_drawCount (w : CommandWord) : (s.commanded w).drawCount = s.drawCount := rfl

end Sys2Proof.Machine
end

