-- ==== Sys2Proof/Laws/Memory.lean ====
section
/-! SUPPORT. What reading and writing BUF does: read after write, the canonical form kept by every memory operation, and
the bit positions of R40. -/

namespace Sys2Proof.Machine

/-! Bytes -/

theorem byteBit_eq (v : Byte) (i : Nat) : byteBit v i = v.getLsbD i := by
  simp [byteBit]

theorem byteBit_zero (i : Nat) : byteBit 0#8 i = false := by simp [byteBit_eq]

theorem byteBit_setByteBit (v : Byte) (b : Bool) {i j : Nat} (hi : i < 8) (hj : j < 8) :
    byteBit (setByteBit v i b) j = if j = i then b else byteBit v j := by
  simp only [byteBit_eq, setByteBit, BitVec.getLsbD_or, BitVec.getLsbD_and, BitVec.getLsbD_not,
    BitVec.getLsbD_shiftLeft, BitVec.getLsbD_setWidth, BitVec.getLsbD_ofBool, BitVec.getLsbD_one]
  by_cases h : j = i
  · subst h; simp [hj]
  · rcases Nat.lt_or_ge j i with hlt | hge
    · simp [h, hj, hlt]
    · have : ¬ j < i := by omega
      have h0 : ¬ (j - i = 0) := by omega
      simp [h, hj, this, h0]

theorem byte_ext {u v : Byte} (h : ∀ i, i < 8 → byteBit u i = byteBit v i) : u = v := by
  apply BitVec.eq_of_getLsbD_eq
  intro i hi
  simpa [byteBit_eq] using h i hi

/-! Reading and writing BUF -/

theorem Memory.wf_tail {c : Host.Cell} {m : Memory} (h : Memory.wf (c :: m)) : m.wf :=
  ⟨(List.pairwise_cons.1 h.1).2, fun x hx => h.2 x (List.mem_cons_of_mem _ hx)⟩

theorem Memory.read_eq_zero_of_below {m : Memory} {i : Nat} (h : ∀ c ∈ m, i < c.1) : m.read i = 0#8 := by
  induction m with
  | nil => rfl
  | cons c m ih =>
    have hc := h c (List.mem_cons_self ..)
    have : ¬ i = c.1 := by omega
    simp only [Memory.read, this, if_false]
    exact ih fun x hx => h x (List.mem_cons_of_mem _ hx)

theorem Memory.read_eq_zero_of_within {m : Memory} {n i : Nat} (h : m.within n) (hi : n ≤ i) : m.read i = 0#8 := by
  induction m with
  | nil => rfl
  | cons c m ih =>
    have hc := h c (List.mem_cons_self ..)
    have : ¬ i = c.1 := by omega
    simp only [Memory.read, this, if_false]
    exact ih fun x hx => h x (List.mem_cons_of_mem _ hx)

theorem Memory.read_write_same {m : Memory} (h : m.wf) (i : Nat) (v : Byte) : (m.write i v).read i = v := by
  induction m with
  | nil => by_cases hv : v = 0#8 <;> simp [Memory.write, Memory.read, hv]
  | cons c m ih =>
    obtain ⟨a, u⟩ := c
    have hp := List.pairwise_cons.1 h.1
    simp only [Memory.write]
    split
    · rename_i hlt
      split
      · rename_i hv
        rw [hv]
        refine Memory.read_eq_zero_of_below fun c hc => ?_
        rcases List.mem_cons.1 hc with rfl | hc
        · exact hlt
        · exact Nat.lt_trans hlt (hp.1 c hc)
      · simp [Memory.read]
    · split
      · rename_i heq
        subst heq
        split
        · rename_i hv
          rw [hv]
          exact Memory.read_eq_zero_of_below fun c hc => hp.1 c hc
        · simp [Memory.read]
      · rename_i hne
        simp only [Memory.read, hne, if_false]
        exact ih (Memory.wf_tail h)

theorem Memory.read_write_other (m : Memory) {i j : Nat} (h : j ≠ i) (v : Byte) :
    (m.write i v).read j = m.read j := by
  induction m with
  | nil => by_cases hv : v = 0#8 <;> simp [Memory.write, Memory.read, hv, h]
  | cons c m ih =>
    obtain ⟨a, u⟩ := c
    simp only [Memory.write]
    split
    · split <;> simp [Memory.read, h]
    · split
      · rename_i heq
        subst heq
        split <;> simp [Memory.read, h]
      · simp [Memory.read, ih]

theorem Memory.mem_write {m : Memory} {i : Nat} {v : Byte} {c : Host.Cell} (h : c ∈ m.write i v) :
    c ∈ m ∨ (c = (i, v) ∧ v ≠ 0#8) := by
  induction m with
  | nil =>
    simp only [Memory.write] at h
    split at h
    · cases h
    · rename_i hv; exact .inr ⟨by simpa using h, hv⟩
  | cons d m ih =>
    obtain ⟨a, u⟩ := d
    simp only [Memory.write] at h
    split at h
    · split at h
      · exact .inl h
      · rename_i hv
        rcases List.mem_cons.1 h with rfl | h
        · exact .inr ⟨rfl, hv⟩
        · exact .inl h
    · split at h
      · split at h
        · exact .inl (List.mem_cons_of_mem _ h)
        · rename_i hv
          rcases List.mem_cons.1 h with rfl | h
          · exact .inr ⟨rfl, hv⟩
          · exact .inl (List.mem_cons_of_mem _ h)
      · rcases List.mem_cons.1 h with rfl | h
        · exact .inl (List.mem_cons_self ..)
        · rcases ih h with h | h
          · exact .inl (List.mem_cons_of_mem _ h)
          · exact .inr h

theorem Memory.write_wf {m : Memory} (h : m.wf) (i : Nat) (v : Byte) : (m.write i v).wf := by
  refine ⟨?_, fun c hc => ?_⟩
  · induction m with
    | nil => by_cases hv : v = 0#8 <;> simp [Memory.write, hv]
    | cons d m ih =>
      obtain ⟨a, u⟩ := d
      have hp := List.pairwise_cons.1 h.1
      have htail := ih (Memory.wf_tail h)
      simp only [Memory.write]
      split
      · rename_i hlt
        split
        · exact h.1
        · refine List.pairwise_cons.2 ⟨fun c hc => ?_, h.1⟩
          rcases List.mem_cons.1 hc with rfl | hc
          · exact hlt
          · exact Nat.lt_trans hlt (hp.1 c hc)
      · split
        · rename_i heq
          subst heq
          split
          · exact hp.2
          · exact List.pairwise_cons.2 ⟨hp.1, hp.2⟩
        · rename_i hlt hne
          refine List.pairwise_cons.2 ⟨fun c hc => ?_, htail⟩
          rcases Memory.mem_write hc with hc | ⟨rfl, -⟩
          · exact hp.1 c hc
          · show a < i
            omega
  · rcases Memory.mem_write hc with hc | ⟨rfl, hv⟩
    · exact h.2 c hc
    · exact hv

theorem Memory.write_within {m : Memory} {n : Nat} (h : m.within n) {i : Nat} (hi : i < n) (v : Byte) :
    (m.write i v).within n := by
  intro c hc
  rcases Memory.mem_write hc with hc | ⟨rfl, -⟩
  · exact h c hc
  · exact hi

/-- Equal buffers are equal data: a canonical buffer is determined by what its indices read. -/
theorem Memory.ext_read {m m' : Memory} (h : m.wf) (h' : m'.wf) (hr : ∀ i, m.read i = m'.read i) : m = m' := by
  induction m generalizing m' with
  | nil =>
    cases m' with
    | nil => rfl
    | cons c m' =>
      have := hr c.1
      simp only [Memory.read, if_true] at this
      exact absurd this.symm (h'.2 c (List.mem_cons_self ..))
  | cons c m ih =>
    obtain ⟨a, u⟩ := c
    have hu : u ≠ 0#8 := h.2 _ (List.mem_cons_self ..)
    have hlow := (List.pairwise_cons.1 h.1).1
    cases m' with
    | nil =>
      have := hr a
      simp only [Memory.read, if_true] at this
      exact absurd this hu
    | cons c' m' =>
      obtain ⟨a', u'⟩ := c'
      have hu' : u' ≠ 0#8 := h'.2 _ (List.mem_cons_self ..)
      have hlow' := (List.pairwise_cons.1 h'.1).1
      have haa : a = a' := by
        rcases Nat.lt_trichotomy a a' with hlt | heq | hgt
        · have := hr a
          rw [Memory.read_eq_zero_of_below (m := (a', u') :: m') (i := a)] at this
          · simp only [Memory.read, if_true] at this
            exact absurd this hu
          · intro c hc
            rcases List.mem_cons.1 hc with rfl | hc
            · exact hlt
            · exact Nat.lt_trans hlt (hlow' c hc)
        · exact heq
        · have := hr a'
          rw [Memory.read_eq_zero_of_below (m := (a, u) :: m) (i := a')] at this
          · simp only [Memory.read, if_true] at this
            exact absurd this.symm hu'
          · intro c hc
            rcases List.mem_cons.1 hc with rfl | hc
            · exact hgt
            · exact Nat.lt_trans hgt (hlow c hc)
      subst haa
      have huu : u = u' := by simpa [Memory.read] using hr a
      subst huu
      rw [ih (Memory.wf_tail h) (Memory.wf_tail h')]
      intro i
      by_cases hi : i = a
      · subst hi
        rw [Memory.read_eq_zero_of_below fun c hc => hlow c hc, Memory.read_eq_zero_of_below fun c hc => hlow' c hc]
      · simpa [Memory.read, hi] using hr i

/-! A buffer laid out from bytes -/

theorem Memory.mem_ofBytes {bytes : List Byte} {start : Nat} {c : Host.Cell} (h : c ∈ Memory.ofBytes start bytes) :
    start ≤ c.1 ∧ c.1 < start + bytes.length ∧ c.2 ≠ 0#8 := by
  induction bytes generalizing start with
  | nil => cases h
  | cons v rest ih =>
    simp only [Memory.ofBytes] at h
    split at h
    · have := ih h
      simp only [List.length_cons]
      exact ⟨by omega, by omega, this.2.2⟩
    · rename_i hv
      rcases List.mem_cons.1 h with rfl | h
      · exact ⟨Nat.le_refl _, by simp, hv⟩
      · have := ih h
        simp only [List.length_cons]
        exact ⟨by omega, by omega, this.2.2⟩

theorem Memory.ofBytes_wf (start : Nat) (bytes : List Byte) : (Memory.ofBytes start bytes).wf := by
  refine ⟨?_, fun c hc => (Memory.mem_ofBytes hc).2.2⟩
  induction bytes generalizing start with
  | nil => exact List.Pairwise.nil
  | cons v rest ih =>
    simp only [Memory.ofBytes]
    split
    · exact ih _
    · refine List.pairwise_cons.2 ⟨fun c hc => ?_, ih _⟩
      have := (Memory.mem_ofBytes hc).1
      show start < c.1
      omega

theorem Memory.ofBytes_within {bytes : List Byte} {n : Nat} (h : bytes.length ≤ n) :
    (Memory.ofBytes 0 bytes).within n := by
  intro c hc
  have := (Memory.mem_ofBytes hc).2.1
  omega

theorem Memory.read_ofBytes (start i : Nat) (bytes : List Byte) (h : start ≤ i) :
    (Memory.ofBytes start bytes).read i = bytes.getD (i - start) 0#8 := by
  induction bytes generalizing start with
  | nil => simp [Memory.ofBytes, Memory.read]
  | cons v rest ih =>
    by_cases hi : i = start
    · subst hi
      simp only [Memory.ofBytes]
      split
      · rename_i hv
        rw [Memory.read_eq_zero_of_below fun c hc => ?_]
        · simpa using hv.symm
        · have := (Memory.mem_ofBytes hc).1
          omega
      · simp [Memory.read]
    · have hs : start + 1 ≤ i := by omega
      have he : i - start = (i - (start + 1)) + 1 := by omega
      simp only [Memory.ofBytes]
      split
      · rw [ih _ hs, he]; simp
      · simp only [Memory.read, hi, if_false]
        rw [ih _ hs, he]; simp

theorem Memory.firstBytes_length (m : Memory) (k : Nat) : (m.firstBytes k).length = k := by
  simp [Memory.firstBytes]

theorem Memory.firstBytes_getElem (m : Memory) {k i : Nat} (h : i < (m.firstBytes k).length) :
    (m.firstBytes k)[i] = m.read i := by
  simp [Memory.firstBytes]

/-! Bit positions -/

theorem Memory.bit_nil (p : Nat) : Memory.bit [] p = false := by
  simp [Memory.bit, Memory.read, byteBit_eq]

/-- R40: writing one bit position leaves every other bit position as it was. -/
theorem Memory.bit_setBit {m : Memory} (h : m.wf) (p : Nat) (b : Bool) (q : Nat) :
    (m.setBit p b).bit q = if q = p then b else m.bit q := by
  unfold Memory.setBit Memory.bit
  by_cases hb : q / 8 = p / 8
  · rw [hb, Memory.read_write_same h, byteBit_setByteBit _ _ (Nat.mod_lt _ (by decide)) (Nat.mod_lt _ (by decide))]
    have : q % 8 = p % 8 ↔ q = p := by omega
    simp only [this]
  · rw [Memory.read_write_other _ hb]
    have : q ≠ p := fun h => hb (by rw [h])
    rw [if_neg this]

theorem Memory.setBit_wf {m : Memory} (h : m.wf) (p : Nat) (b : Bool) : (m.setBit p b).wf :=
  Memory.write_wf h _ _

theorem Memory.setBit_within {m : Memory} {n : Nat} (h : m.within n) {p : Nat} (hp : p < 8 * n) (b : Bool) :
    (m.setBit p b).within n :=
  Memory.write_within h (by omega) _

theorem Memory.bit_eq_false_of_within {m : Memory} {n p : Nat} (h : m.within n) (hp : 8 * n ≤ p) : m.bit p = false := by
  rw [Memory.bit, Memory.read_eq_zero_of_within h (by omega), byteBit_zero]

end Sys2Proof.Machine
end

