-- ==== Sys2Proof/Laws/Ops.lean ====
section
/-! SUPPORT. What each shared operation can do, once: the port transactions, `put_bit`, `get_bit`, a field, and command
entry. Provers cite these instead of unfolding the operations. -/

namespace Sys2Proof.Machine

/-! Sequencing -/

@[simp] theorem Progress.bind_done {α β : Type} (a : α) (s : State) (k : α → State → Progress β) :
    (Progress.done a s).bind k = k a s := rfl

@[simp] theorem Progress.bind_ioError {α β : Type} (s : State) (k : α → State → Progress β) :
    (Progress.ioError s).bind k = .ioError s := rfl

theorem State.answerAt_drawn (s : State) (k : Nat) : s.drawn.answerAt k = s.answerAt (k + 1) := by
  simp only [State.answerAt, State.drawn_answers, State.drawn_drawCount, List.getElem?_tail]
  rw [show s.drawCount + 1 + k = s.drawCount + (k + 1) by omega]

/-- A later state that drew `d` answers of `s` gets the answers of `s` from number `d` on. -/
theorem State.answerAt_of_dropped {s t : State} {d : Nat} (ha : t.answers = s.answers.drop d)
    (hc : t.drawCount = s.drawCount + d) (k : Nat) : t.answerAt k = s.answerAt (d + k) := by
  simp [State.answerAt, ha, hc, Nat.add_assoc]

/-! Port transactions -/

theorem sinkWrite_ok {s : State} (h : s.answerAt 0 = .ok) (bytes : List Byte) :
    sinkWrite bytes s = .done () (s.drawn.sinkSent (.write bytes .ok)) := by simp [sinkWrite, h]

theorem sinkWrite_err {s : State} {x : Nat} (h : s.answerAt 0 = .err x) (bytes : List Byte) :
    sinkWrite bytes s = .ioError (s.drawn.sinkSent (.write bytes (.err x))) := by simp [sinkWrite, h]

theorem sinkFlush_ok {s : State} (h : s.answerAt 0 = .ok) :
    sinkFlush s = .done () (s.drawn.sinkSent (.flush .ok)) := by simp [sinkFlush, h]

theorem sinkFlush_err {s : State} {x : Nat} (h : s.answerAt 0 = .err x) :
    sinkFlush s = .ioError (s.drawn.sinkSent (.flush (.err x))) := by simp [sinkFlush, h]

theorem sourceRead_ok {s : State} (h : s.answerAt 0 = .ok) (n : Nat) :
    sourceRead n s = .done (s.sourceRest.take n)
      (s.drawn.sourceAsked ⟨n, some (s.sourceRest.take n)⟩ (s.sourceRest.take n).length) := by
  simp only [sourceRead, h]

theorem sourceRead_err {s : State} {x : Nat} (h : s.answerAt 0 = .err x) (n : Nat) :
    sourceRead n s = .ioError (s.drawn.sourceAsked ⟨n, none⟩ (min x (s.sourceRest.take n).length)) := by
  simp only [sourceRead, h]

theorem answer_cases (a : PortAnswer) : a = .ok ∨ ∃ x, a = .err x := by
  cases a <;> simp

/-! `put_bit` (R73): the three things it can do -/

theorem putBit_of_room {s : State} (h : s.offset ≠ s.capBits) (b : Bool) : putBit b s = .done () (s.storeBit b) := by
  simp [putBit, drainIfFull, h]

/-- The state after a drain that the sink answered `ok`. -/
abbrev State.drained (s : State) : State :=
  (s.drawn.sinkSent (.write (s.buf.firstBytes s.capBytes) .ok)).emptied

theorem putBit_of_full_ok {s : State} (h : s.offset = s.capBits) (ha : s.answerAt 0 = .ok) (b : Bool) :
    putBit b s = .done () (s.drained.storeBit b) := by
  simp [putBit, drainIfFull, h, drain, sinkWrite_ok ha]

theorem putBit_of_full_err {s : State} {x : Nat} (h : s.offset = s.capBits) (ha : s.answerAt 0 = .err x) (b : Bool) :
    putBit b s = .ioError (s.drawn.sinkSent (.write (s.buf.firstBytes s.capBytes) (.err x))) := by
  simp [putBit, drainIfFull, h, drain, sinkWrite_err ha]

theorem putBit_cases (b : Bool) (s : State) :
    (s.offset ≠ s.capBits ∧ putBit b s = .done () (s.storeBit b)) ∨
    (s.offset = s.capBits ∧ s.answerAt 0 = .ok ∧ putBit b s = .done () (s.drained.storeBit b)) ∨
    (∃ x, s.offset = s.capBits ∧ s.answerAt 0 = .err x ∧
      putBit b s = .ioError (s.drawn.sinkSent (.write (s.buf.firstBytes s.capBytes) (.err x)))) := by
  by_cases h : s.offset = s.capBits
  · rcases answer_cases (s.answerAt 0) with ha | ⟨x, ha⟩
    · exact .inr (.inl ⟨h, ha, putBit_of_full_ok h ha b⟩)
    · exact .inr (.inr ⟨x, h, ha, putBit_of_full_err h ha b⟩)
  · exact .inl ⟨h, putBit_of_room h b⟩

/-! `get_bit` (R83): the three things it can do -/

theorem getBit_of_room {s : State} (h : s.offset ≠ s.capBits) :
    getBit s = .done (s.buf.bit s.offset) s.bitTaken := by
  simp [getBit, refillIfConsumed, h]

/-- The bytes the next refill gets if the source answers with bytes. -/
abbrev State.nextBytes (s : State) : List Byte := s.sourceRest.take s.capBytes

/-- The state after a refill that the source answered with bytes. -/
abbrev State.refreshed (s : State) : State :=
  (s.drawn.sourceAsked ⟨s.capBytes, some s.nextBytes⟩ s.nextBytes.length).refilled s.nextBytes

theorem getBit_of_consumed_ok {s : State} (h : s.offset = s.capBits) (ha : s.answerAt 0 = .ok) :
    getBit s = .done (s.refreshed.buf.bit 0) s.refreshed.bitTaken := by
  simp only [getBit, refillIfConsumed, h, if_true, refill, sourceRead_ok ha, Progress.bind_done]
  rfl

theorem getBit_of_consumed_err {s : State} {x : Nat} (h : s.offset = s.capBits) (ha : s.answerAt 0 = .err x) :
    getBit s = .ioError (s.drawn.sourceAsked ⟨s.capBytes, none⟩ (min x s.nextBytes.length)) := by
  simp only [getBit, refillIfConsumed, h, if_true, refill, sourceRead_err ha, Progress.bind_ioError]

theorem getBit_cases (s : State) :
    (s.offset ≠ s.capBits ∧ getBit s = .done (s.buf.bit s.offset) s.bitTaken) ∨
    (s.offset = s.capBits ∧ s.answerAt 0 = .ok ∧ getBit s = .done (s.refreshed.buf.bit 0) s.refreshed.bitTaken) ∨
    (∃ x, s.offset = s.capBits ∧ s.answerAt 0 = .err x ∧
      getBit s = .ioError (s.drawn.sourceAsked ⟨s.capBytes, none⟩ (min x s.nextBytes.length))) := by
  by_cases h : s.offset = s.capBits
  · rcases answer_cases (s.answerAt 0) with ha | ⟨x, ha⟩
    · exact .inr (.inl ⟨h, ha, getBit_of_consumed_ok h ha⟩)
    · exact .inr (.inr ⟨x, h, ha, getBit_of_consumed_err h ha⟩)
  · exact .inl ⟨h, getBit_of_room h⟩

/-! Fields: what every bit keeps, the field keeps -/

theorem putField_keeps {P Q : State → Prop} (hbit : ∀ b s t, P s → putBit b s = .done () t → P t)
    (herr : ∀ b s t, P s → putBit b s = .ioError t → Q t) (v : Data) (count k : Nat) (s : State) (h : P s) :
    (∀ t, putField v count k s = .done () t → P t) ∧ (∀ t, putField v count k s = .ioError t → Q t) := by
  induction count generalizing k s with
  | zero => exact ⟨fun t ht => by cases ht; exact h, fun t ht => by cases ht⟩
  | succ count ih =>
    simp only [putField]
    cases hp : putBit (valueBit v k) s with
    | done _ u => exact ih _ u (hbit _ _ _ h hp)
    | ioError u =>
      refine ⟨fun t ht => (by cases ht), fun t ht => ?_⟩
      cases ht
      exact herr _ _ _ h hp

theorem getField_keeps {P Q : State → Prop} (hbit : ∀ b s t, P s → getBit s = .done b t → P t)
    (herr : ∀ s t, P s → getBit s = .ioError t → Q t) (count k : Nat) (acc : Data) (s : State) (h : P s) :
    (∀ a t, getField count k acc s = .done a t → P t) ∧ (∀ t, getField count k acc s = .ioError t → Q t) := by
  induction count generalizing k acc s with
  | zero => exact ⟨fun a t ht => by cases ht; exact h, fun t ht => by cases ht⟩
  | succ count ih =>
    simp only [getField]
    cases hp : getBit s with
    | done b u => exact ih _ _ u (hbit _ _ _ h hp)
    | ioError u =>
      refine ⟨fun a t ht => (by cases ht), fun t ht => ?_⟩
      cases ht
      exact herr _ _ h hp

/-! Command entry (R98, R100) -/

theorem enter_of_fault {s : State} (h : s.fault = true) (m : Mode) (legal : Bool) (body : State → Progress Data) :
    enter m legal body s = s.respond s.faultCode 0 := by simp [enter, h]

theorem enter_of_illegal {s : State} (h : s.fault = false) (m : Mode) (body : State → Progress Data) :
    enter m false body s = s.raise .illegalCommand := by simp [enter, h]

theorem enter_of_wrong_mode {s : State} {m : Mode} (h : s.fault = false) (hm : s.mode ≠ m)
    (body : State → Progress Data) : enter m true body s = s.raise .modeViolation := by simp [enter, h, hm]

theorem enter_of_ready {s : State} {m : Mode} (h : s.fault = false) (hm : s.mode = m) (body : State → Progress Data) :
    enter m true body s = finish (body s) := by simp [enter, h, hm]

/-- What command entry can do, once for all five commands. -/
theorem enter_cases (m : Mode) (legal : Bool) (body : State → Progress Data) (s : State) :
    (s.fault = true ∧ enter m legal body s = s.respond s.faultCode 0) ∨
    (s.fault = false ∧ legal = false ∧ enter m legal body s = s.raise .illegalCommand) ∨
    (s.fault = false ∧ legal = true ∧ s.mode ≠ m ∧ enter m legal body s = s.raise .modeViolation) ∨
    (s.fault = false ∧ legal = true ∧ s.mode = m ∧ ∃ d t, body s = .done d t ∧
      enter m legal body s = t.respond statusOk d) ∨
    (s.fault = false ∧ legal = true ∧ s.mode = m ∧ ∃ t, body s = .ioError t ∧
      enter m legal body s = t.scrambled.raise .ioError) := by
  cases hf : s.fault with
  | true => exact .inl ⟨rfl, enter_of_fault hf m legal body⟩
  | false =>
    cases legal with
    | false => exact .inr (.inl ⟨rfl, rfl, enter_of_illegal hf m body⟩)
    | true =>
      by_cases hm : s.mode = m
      · rw [enter_of_ready hf hm]
        cases hb : body s with
        | done d t => exact .inr (.inr (.inr (.inl ⟨rfl, rfl, hm, d, t, rfl, rfl⟩)))
        | ioError t => exact .inr (.inr (.inr (.inr ⟨rfl, rfl, hm, t, rfl, rfl⟩)))
      · exact .inr (.inr (.inl ⟨rfl, rfl, hm, enter_of_wrong_mode hf hm body⟩))

end Sys2Proof.Machine
end

