-- ==== Sys2Proof/Laws/Stream.lean ====
section
/-! SUPPORT. Streams of bits: what BUF, the sink and the source hold as bits in order, and what one bit written, one bit
read, a drain and a refill do to them (spec 20_memory.md R41, R47, R48). -/

namespace Sys2Proof.Machine

/-! Bits of bytes -/

@[simp] theorem bytesBits_nil : bytesBits [] = [] := rfl

@[simp] theorem bytesBits_append (xs ys : List Byte) : bytesBits (xs ++ ys) = bytesBits xs ++ bytesBits ys := by
  simp [bytesBits]

theorem bytesBits_cons (x : Byte) (xs : List Byte) :
    bytesBits (x :: xs) = (List.range 8).map (byteBit x) ++ bytesBits xs := by simp [bytesBits]

@[simp] theorem length_bytesBits (bytes : List Byte) : (bytesBits bytes).length = 8 * bytes.length := by
  induction bytes with
  | nil => rfl
  | cons x xs ih => rw [bytesBits_cons]; simp [ih]; omega

/-- Bit (p mod 8) of byte (p div 8), 0 past the end (R41, R48). -/
theorem getD_bytesBits (bytes : List Byte) (p : Nat) :
    (bytesBits bytes).getD p false = byteBit (bytes.getD (p / 8) 0#8) (p % 8) := by
  induction bytes generalizing p with
  | nil => simp [byteBit_zero]
  | cons x xs ih =>
    rw [bytesBits_cons]
    by_cases hp : p < 8
    · rw [List.getD_append _ _ _ _ (by simpa using hp)]
      have h0 : p / 8 = 0 := by omega
      have h1 : p % 8 = p := by omega
      rw [h0, h1]
      simp [List.getD_eq_getElem?_getD, hp]
    · rw [List.getD_append_right _ _ _ _ (by simpa using hp)]
      obtain ⟨q, rfl⟩ : ∃ q, p = q + 8 := ⟨p - 8, by omega⟩
      have h0 : (q + 8) / 8 = q / 8 + 1 := by omega
      have h1 : (q + 8) % 8 = q % 8 := by omega
      rw [h0, h1]
      simpa using ih q

/-! Bit positions of BUF as a list -/

@[simp] theorem Memory.length_bits (m : Memory) (lo hi : Nat) : (m.bits lo hi).length = hi - lo := by
  simp [Memory.bits]

@[simp] theorem Memory.bits_self (m : Memory) (lo : Nat) : m.bits lo lo = [] := by simp [Memory.bits]

theorem Memory.bits_of_le (m : Memory) {lo hi : Nat} (h : hi ≤ lo) : m.bits lo hi = [] := by
  simp [Memory.bits, Nat.sub_eq_zero_of_le h]

theorem Memory.bits_succ (m : Memory) {lo hi : Nat} (h : lo ≤ hi) :
    m.bits lo (hi + 1) = m.bits lo hi ++ [m.bit hi] := by
  have : hi + 1 - lo = hi - lo + 1 := by omega
  rw [Memory.bits, this, List.range'_concat]
  simp [Memory.bits, Nat.add_sub_cancel' h]

theorem Memory.bits_cons (m : Memory) {lo hi : Nat} (h : lo < hi) :
    m.bits lo hi = m.bit lo :: m.bits (lo + 1) hi := by
  have : hi - lo = hi - (lo + 1) + 1 := by omega
  rw [Memory.bits, this, List.range'_succ]
  simp [Memory.bits]

theorem Memory.bits_congr {m m' : Memory} {lo hi : Nat} (h : ∀ p, lo ≤ p → p < hi → m.bit p = m'.bit p) :
    m.bits lo hi = m'.bits lo hi := by
  apply List.map_congr_left
  intro p hp
  have := List.mem_range'_1.1 hp
  exact h p this.1 (by omega)

theorem Memory.getD_bits (m : Memory) (lo hi k : Nat) :
    (m.bits lo hi).getD k false = (decide (lo + k < hi) && m.bit (lo + k)) := by
  by_cases h : lo + k < hi
  · have hk : k < hi - lo := by omega
    simp [Memory.bits, List.getD_eq_getElem?_getD, hk, h]
  · have hk : ¬ k < hi - lo := by omega
    simp [Memory.bits, List.getD_eq_getElem?_getD, hk, h]

/-- The bits of the first `k` bytes of BUF are its first 8 × k bit positions (R40, R41). -/
theorem Memory.bytesBits_firstBytes (m : Memory) (k : Nat) : bytesBits (m.firstBytes k) = m.bits 0 (8 * k) := by
  apply List.ext_getElem?
  intro p
  by_cases hp : p < 8 * k
  · have h1 := getD_bytesBits (m.firstBytes k) p
    have h2 := Memory.getD_bits m 0 (8 * k) p
    have hl : p < (bytesBits (m.firstBytes k)).length := by simpa [Memory.firstBytes_length] using hp
    have hr : p < (m.bits 0 (8 * k)).length := by simpa using hp
    rw [List.getElem?_eq_getElem hl, List.getElem?_eq_getElem hr]
    rw [List.getD_eq_getElem _ _ hl] at h1
    rw [List.getD_eq_getElem _ _ hr] at h2
    rw [h1, h2]
    have hk : p / 8 < k := by omega
    simp [Memory.bit, hp, Memory.firstBytes, List.getD_eq_getElem?_getD, hk]
  · rw [List.getElem?_eq_none (by simpa [Memory.firstBytes_length] using Nat.le_of_not_lt hp),
      List.getElem?_eq_none (by simpa using Nat.le_of_not_lt hp)]

theorem Memory.bit_ofBytes (bytes : List Byte) (p : Nat) :
    (Memory.ofBytes 0 bytes).bit p = (bytesBits bytes).getD p false := by
  rw [getD_bytesBits, Memory.bit, Memory.read_ofBytes _ _ _ (Nat.zero_le _), Nat.sub_zero]

/-- A buffer laid out from bytes holds those bytes' bits, in order (R41). -/
theorem Memory.bits_ofBytes (bytes : List Byte) : (Memory.ofBytes 0 bytes).bits 0 (8 * bytes.length) = bytesBits bytes := by
  apply List.ext_getElem
  · simp
  · intro p hp hq
    have := Memory.getD_bits (Memory.ofBytes 0 bytes) 0 (8 * bytes.length) p
    rw [List.getD_eq_getElem _ _ hp] at this
    rw [this, Memory.bit_ofBytes, List.getD_eq_getElem _ _ (by simpa using hq)]
    · simp at hq; simp [hq]

/-! The sink's bytes -/

@[simp] theorem State.sinkBytes_sinkSent (s : State) (t : SinkTransaction) :
    (s.sinkSent t).sinkBytes = s.sinkBytes ++ t.kept := by simp [State.sinkBytes]

theorem State.sinkBytes_congr {s t : State} (h : t.sinkLog = s.sinkLog) : t.sinkBytes = s.sinkBytes := by
  simp [State.sinkBytes, h]

theorem State.sinkBytes_append {s t : State} {sent : List SinkTransaction} (h : t.sinkLog = s.sinkLog ++ sent) :
    t.sinkBytes = s.sinkBytes ++ sent.flatMap SinkTransaction.kept := by simp [State.sinkBytes, h]

/-! What one bit does to the stream -/

theorem State.writtenBits_storeBit {s : State} (h : s.buf.wf) (b : Bool) :
    (s.storeBit b).writtenBits = s.writtenBits ++ [b] := by
  have hs : (s.storeBit b).sinkBytes = s.sinkBytes := State.sinkBytes_congr rfl
  have hb : (s.buf.setBit s.offset b).bits 0 s.offset = s.buf.bits 0 s.offset :=
    Memory.bits_congr fun p _ hp => by rw [Memory.bit_setBit h, if_neg (Nat.ne_of_lt hp)]
  rw [State.writtenBits, hs, State.storeBit_buf, State.storeBit_offset, Memory.bits_succ _ (Nat.zero_le _), hb,
    Memory.bit_setBit h, if_pos rfl, State.writtenBits, List.append_assoc]

/-- A drain moves bits from BUF to the sink and changes no stream bit (R47). -/
theorem State.writtenBits_drained {s : State} (h : s.offset = s.capBits) :
    s.drained.writtenBits = s.writtenBits := by
  have hs : s.drained.sinkBytes = s.sinkBytes ++ s.buf.firstBytes s.capBytes := by
    simp [State.sinkBytes, SinkTransaction.kept]
  rw [State.writtenBits, hs, bytesBits_append, Memory.bytesBits_firstBytes, State.writtenBits, h]
  simp [State.capBits]

/-- A bit inside the unread part is taken off its front. -/
theorem State.unreadBits_bitTaken {s : State} (h : s.offset < 8 * s.valid) :
    s.unreadBits = s.buf.bit s.offset :: s.bitTaken.unreadBits := by
  simp [State.unreadBits, State.sourceRest, Memory.bits_cons _ h]

theorem State.length_nextBytes (s : State) : s.nextBytes.length = min s.capBytes s.sourceRest.length := by
  simp [State.nextBytes]

/-- A refill of a consumed buffer moves bits from the source to BUF and changes no stream bit (R48). -/
theorem State.unreadBits_refreshed {s : State} (h : s.offset = s.capBits) (hv : s.valid ≤ s.capBytes) :
    s.refreshed.unreadBits = s.unreadBits := by
  have h0 : s.buf.bits s.offset (8 * s.valid) = [] := Memory.bits_of_le _ (by simp only [h, State.capBits]; omega)
  have h1 : s.refreshed.sourceRest = s.sourceRest.drop s.nextBytes.length := by
    simp [State.sourceRest, List.drop_drop]
  have h2 : s.sourceRest = s.nextBytes ++ s.sourceRest.drop s.nextBytes.length := by
    conv_lhs => rw [← List.take_append_drop s.capBytes s.sourceRest]
    congr 1
    rw [State.length_nextBytes]
    rcases Nat.le_total s.capBytes s.sourceRest.length with hle | hle
    · rw [Nat.min_eq_left hle]
    · rw [Nat.min_eq_right hle, List.drop_eq_nil_of_le hle, List.drop_eq_nil_of_le (Nat.le_refl _)]
  rw [State.unreadBits, State.unreadBits, h0, h1]
  simp only [State.refilled_buf, State.refilled_offset, State.refilled_valid, Memory.bits_ofBytes, List.nil_append]
  rw [← bytesBits_append, ← h2]

end Sys2Proof.Machine
end

