-- ==== Sys2Proof/Laws/Invariant.lean ====
section
/-! SUPPORT. What the shared operations do to the invariant `State.Inv` (spec 10_state.md R16, R22, R25, R26): a bit
written, a bit read, a drain, a refill, a response and a raised fault each keep it. -/

namespace Sys2Proof.Machine

theorem Memory.within_nil (n : Nat) : Memory.within [] n := by intro c hc; cases hc

theorem Memory.wf_nil : Memory.wf [] := ⟨List.Pairwise.nil, fun c hc => by cases hc⟩

theorem State.Inv.capBits_pos {s : State} (h : s.Inv) : 0 < s.capBits := by
  have := h.cap_pos
  simp only [State.capBits]; omega

/-- The invariant of a block that can execute a write command. -/
abbrev State.WriteReady (s : State) : Prop := s.Inv ∧ s.fault = false ∧ s.mode = .write

/-- The invariant of a block that can execute a read command. -/
abbrev State.ReadReady (s : State) : Prop := s.Inv ∧ s.fault = false ∧ s.mode = .read

/-! Recording: what the port, response and fault updates do to the invariant -/

/-- The invariant depends on these fields alone. -/
theorem State.Inv.congr {s t : State} (h : s.Inv) (h1 : t.capBytes = s.capBytes) (h2 : t.mode = s.mode)
    (h3 : t.buf = s.buf) (h4 : t.offset = s.offset) (h5 : t.valid = s.valid) (h6 : t.eos = s.eos)
    (h7 : t.fault = s.fault) (h8 : t.faultCode = s.faultCode) (h9 : t.sourcePos ≤ t.source.length) : t.Inv := by
  have hc : t.capBits = s.capBits := by simp [State.capBits, h1]
  constructor
  · rw [h1]; exact h.cap_pos
  · rw [h3]; exact h.buf_wf
  · rw [h3, h1]; exact h.buf_within
  · rw [h4, hc]; exact h.offset_le
  · rw [h5, h1]; exact h.valid_le
  · rw [h8]; exact h.code_le
  · rw [h7, h8]; exact h.code_zero
  · exact h9
  · rw [h2, h6]; exact h.write_eos
  · rw [h8, h2, h5]; exact h.write_valid
  · rw [h7, h2, hc, h4, h3]; exact h.write_clean
  · rw [h7, h2, h1, h5, h3]; exact h.read_clean

theorem State.Inv.respond {s : State} (h : s.Inv) (c : BitVec 4) (d : Data) : (s.respond c d).Inv :=
  h.congr rfl rfl rfl rfl rfl rfl rfl rfl h.source_le

/-- A fault is raised only where none is recorded (R97), so the flags were clean. -/
theorem State.Inv.raise {s : State} (h : s.Inv) (hf : s.fault = false) (f : FaultKind) : (s.raise f).Inv := by
  constructor
  · exact h.cap_pos
  · exact h.buf_wf
  · exact h.buf_within
  · exact h.offset_le
  · exact h.valid_le
  · cases f <;> simp [FaultKind.code]
  · cases f <;> simp [FaultKind.code]
  · exact h.source_le
  · exact h.write_eos
  · intro _ hm
    exact h.write_valid (by simp [h.code_zero.1 hf]) hm
  · intro hf; simp at hf
  · intro hf; simp at hf

/-- After an IO_ERROR the ranges hold for every value the free values may take (R101). -/
theorem State.Inv.scrambled_raise {s : State} (h : s.Inv) : (s.scrambled.raise .ioError).Inv := by
  constructor
  · exact h.cap_pos
  · exact Memory.ofBytes_wf _ _
  · exact Memory.ofBytes_within (by simp)
  · exact Nat.min_le_right _ _
  · exact Nat.min_le_right _ _
  · simp [FaultKind.code]
  · simp [FaultKind.code]
  · exact h.source_le
  · exact h.write_eos
  · intro hc; simp [FaultKind.code] at hc
  · intro hf; simp at hf
  · intro hf; simp at hf

/-! Writing -/

theorem State.WriteReady.storeBit {s : State} (h : s.WriteReady) (ho : s.offset < s.capBits) (b : Bool) :
    (s.storeBit b).WriteReady := by
  obtain ⟨hi, hf, hm⟩ := h
  refine ⟨?_, hf, hm⟩
  constructor
  · exact hi.cap_pos
  · exact Memory.setBit_wf hi.buf_wf _ _
  · exact Memory.setBit_within hi.buf_within ho _
  · exact ho
  · exact hi.valid_le
  · exact hi.code_le
  · exact hi.code_zero
  · exact hi.source_le
  · exact hi.write_eos
  · exact hi.write_valid
  · intro _ _ p hp hop
    have hop' : s.offset + 1 ≤ p := hop
    show (s.buf.setBit s.offset b).bit p = false
    rw [Memory.bit_setBit hi.buf_wf, if_neg (by omega)]
    exact hi.write_clean hf hm p hp (by omega)
  · intro _ hr
    have hr' : s.mode = .read := hr
    rw [hm] at hr'; cases hr'

theorem State.WriteReady.emptied {s : State} (h : s.WriteReady) : s.emptied.WriteReady := by
  obtain ⟨hi, hf, hm⟩ := h
  refine ⟨?_, hf, hm⟩
  constructor
  · exact hi.cap_pos
  · exact Memory.wf_nil
  · exact Memory.within_nil _
  · exact Nat.zero_le _
  · exact hi.valid_le
  · exact hi.code_le
  · exact hi.code_zero
  · exact hi.source_le
  · exact hi.write_eos
  · exact hi.write_valid
  · intro _ _ p _ _; exact Memory.bit_nil p
  · intro _ _ i _ _; rfl

theorem State.WriteReady.sinkSent {s : State} (h : s.WriteReady) (t : SinkTransaction) :
    (s.drawn.sinkSent t).WriteReady :=
  ⟨h.1.congr rfl rfl rfl rfl rfl rfl rfl rfl h.1.source_le, h.2⟩

theorem State.WriteReady.drained {s : State} (h : s.WriteReady) : s.drained.WriteReady := (h.sinkSent _).emptied

theorem putBit_keeps_ready (b : Bool) (s t : State) (h : s.WriteReady) (ht : putBit b s = .done () t) : t.WriteReady := by
  rcases putBit_cases b s with ⟨ho, he⟩ | ⟨-, -, he⟩ | ⟨x, -, -, he⟩ <;> rw [he] at ht <;> cases ht
  · exact h.storeBit (by have := h.1.offset_le; omega) b
  · refine h.drained.storeBit ?_ b
    exact h.1.capBits_pos

theorem putBit_error_keeps_inv (b : Bool) (s t : State) (h : s.WriteReady) (ht : putBit b s = .ioError t) : t.Inv := by
  rcases putBit_cases b s with ⟨-, he⟩ | ⟨-, -, he⟩ | ⟨x, -, -, he⟩ <;> rw [he] at ht <;> cases ht
  exact (h.sinkSent _).1

/-! Reading -/

theorem State.length_nextBytes_le {s : State} (h : s.Inv) : s.sourcePos + s.nextBytes.length ≤ s.source.length := by
  have := h.source_le
  rw [State.length_nextBytes]
  simp only [State.sourceRest, List.length_drop]
  omega

theorem State.ReadReady.bitTaken {s : State} (h : s.ReadReady) (ho : s.offset < s.capBits) : s.bitTaken.ReadReady := by
  obtain ⟨hi, hf, hm⟩ := h
  refine ⟨?_, hf, hm⟩
  constructor
  · exact hi.cap_pos
  · exact hi.buf_wf
  · exact hi.buf_within
  · exact ho
  · exact hi.valid_le
  · exact hi.code_le
  · exact hi.code_zero
  · exact hi.source_le
  · intro hw
    have hw' : s.mode = .write := hw
    rw [hm] at hw'; cases hw'
  · intro _ hw
    have hw' : s.mode = .write := hw
    rw [hm] at hw'; cases hw'
  · intro _ hw
    have hw' : s.mode = .write := hw
    rw [hm] at hw'; cases hw'
  · exact hi.read_clean

theorem State.ReadReady.refreshed {s : State} (h : s.ReadReady) : s.refreshed.ReadReady := by
  obtain ⟨hi, hf, hm⟩ := h
  have hlen : s.nextBytes.length ≤ s.capBytes := by rw [State.length_nextBytes]; exact Nat.min_le_left _ _
  refine ⟨?_, hf, hm⟩
  constructor
  · exact hi.cap_pos
  · exact Memory.ofBytes_wf _ _
  · exact Memory.ofBytes_within hlen
  · exact Nat.zero_le _
  · exact hlen
  · exact hi.code_le
  · exact hi.code_zero
  · show s.sourcePos + s.nextBytes.length ≤ s.source.length
    exact State.length_nextBytes_le hi
  · intro hw
    have hw' : s.mode = .write := hw
    rw [hm] at hw'; cases hw'
  · intro _ hw
    have hw' : s.mode = .write := hw
    rw [hm] at hw'; cases hw'
  · intro _ hw
    have hw' : s.mode = .write := hw
    rw [hm] at hw'; cases hw'
  · intro _ _ i _ hv
    have hv' : s.nextBytes.length ≤ i := hv
    show (Memory.ofBytes 0 s.nextBytes).read i = 0#8
    rw [Memory.read_ofBytes _ _ _ (Nat.zero_le _), Nat.sub_zero, List.getD_eq_default _ _ hv']

theorem getBit_keeps_ready (b : Bool) (s t : State) (h : s.ReadReady) (ht : getBit s = .done b t) : t.ReadReady := by
  rcases getBit_cases s with ⟨ho, he⟩ | ⟨-, -, he⟩ | ⟨x, -, -, he⟩ <;> rw [he] at ht <;> cases ht
  · exact h.bitTaken (by have := h.1.offset_le; omega)
  · exact h.refreshed.bitTaken h.1.capBits_pos

theorem getBit_error_keeps_inv (s t : State) (h : s.ReadReady) (ht : getBit s = .ioError t) : t.Inv := by
  rcases getBit_cases s with ⟨-, he⟩ | ⟨-, -, he⟩ | ⟨x, -, -, he⟩ <;> rw [he] at ht <;> cases ht
  refine h.1.congr rfl rfl rfl rfl rfl rfl rfl rfl ?_
  have := State.length_nextBytes_le h.1
  show s.sourcePos + min x s.nextBytes.length ≤ s.source.length
  omega

end Sys2Proof.Machine
end

