-- ==== Sys2Proof/Laws/Exec.lean ====
section
/-! SUPPORT. What a command can do, once for all five: `exec` is command entry around the command's body, and a body
keeps what no command body writes. Provers cite these instead of unfolding the meanings. -/

namespace Sys2Proof.Machine

/-! exec and step through one shape -/

/-- What each command does once it has passed entry (R74, R75, R84, R85, R89). -/
def commandBody : Instr → State → Progress Data
  | .writeBit b => fun t => (putBit b t).bind fun _ u => .done 0 u
  | .writeBits n v => fun t => (putField v n.toNat 0 t).bind fun _ u => .done 0 u
  | .readBit => fun t => (getBit t).bind fun bit u => .done (bitData bit) u
  | .readBits n => fun t => getField n.toNat 0 0 t
  | .flush => fun t => (publish t).bind fun _ u => (sinkFlush u).bind fun _ v => .done 0 v.emptied

theorem exec_eq (i : Instr) (s : State) : exec i s = .next (enter (neededMode i) i.wf (commandBody i) s) := by
  cases i <;> rfl

theorem exec_of_done {i : Instr} {s t : State} {d : Data} (hw : i.wf = true) (hf : s.fault = false)
    (hm : s.mode = neededMode i) (hb : commandBody i s = .done d t) : exec i s = .next (t.respond statusOk d) := by
  rw [exec_eq, hw, enter_of_ready hf hm, hb]; rfl

theorem exec_of_ioError {i : Instr} {s t : State} (hw : i.wf = true) (hf : s.fault = false)
    (hm : s.mode = neededMode i) (hb : commandBody i s = .ioError t) :
    exec i s = .next (t.scrambled.raise .ioError) := by
  rw [exec_eq, hw, enter_of_ready hf hm, hb]; rfl

/-- A command that leaves FAULT at 0 passed entry and its body went through. -/
theorem done_of_exec {i : Instr} {s t : State} (h : exec i s = .next t) (hf : s.fault = false) (ht : t.fault = false) :
    i.wf = true ∧ s.mode = neededMode i ∧ ∃ d u, commandBody i s = .done d u ∧ t = u.respond statusOk d := by
  rw [exec_eq] at h
  rcases enter_cases (neededMode i) i.wf (commandBody i) s with
    ⟨hh, he⟩ | ⟨_, _, he⟩ | ⟨_, _, _, he⟩ | ⟨_, h1, h2, d, u, hb, he⟩ | ⟨_, _, _, u, hb, he⟩ <;>
    rw [he] at h <;> cases h
  · rw [hf] at hh; cases hh
  · simp at ht
  · simp at ht
  · exact ⟨h1, h2, d, u, hb, rfl⟩
  · simp at ht

theorem step_of_event {s : State} {e : HostEvent} {rest : List HostEvent} (h : s.inbox = e :: rest) :
    step s = handleEvent exec e { s with inbox := rest } := by
  simp [step, takeEvent, h]

/-! FLUSH's body -/

theorem sinkWrite_cases (bytes : List Byte) (s : State) :
    (s.answerAt 0 = .ok ∧ sinkWrite bytes s = .done () (s.drawn.sinkSent (.write bytes .ok))) ∨
    ∃ x, s.answerAt 0 = .err x ∧ sinkWrite bytes s = .ioError (s.drawn.sinkSent (.write bytes (.err x))) := by
  rcases answer_cases (s.answerAt 0) with h | ⟨x, h⟩
  · exact .inl ⟨h, sinkWrite_ok h _⟩
  · exact .inr ⟨x, h, sinkWrite_err h _⟩

theorem sinkFlush_cases (s : State) :
    (s.answerAt 0 = .ok ∧ sinkFlush s = .done () (s.drawn.sinkSent (.flush .ok))) ∨
    ∃ x, s.answerAt 0 = .err x ∧ sinkFlush s = .ioError (s.drawn.sinkSent (.flush (.err x))) := by
  rcases answer_cases (s.answerAt 0) with h | ⟨x, h⟩
  · exact .inl ⟨h, sinkFlush_ok h⟩
  · exact .inr ⟨x, h, sinkFlush_err h⟩

/-- FLUSH fails at its sink write, or reaches the sink flush in `u`, having made `d` transactions, and fails or ends there. -/
theorem flush_cases (s : State) :
    (0 < flushCount s ∧ ∃ x, s.answerAt 0 = .err x ∧
      commandBody .flush s = .ioError (s.drawn.sinkSent (.write (s.buf.firstBytes (flushCount s)) (.err x)))) ∨
    (∃ u d,
      ((0 < flushCount s ∧ d = 1 ∧ s.answerAt 0 = .ok ∧
          u = s.drawn.sinkSent (.write (s.buf.firstBytes (flushCount s)) .ok)) ∨
        (flushCount s = 0 ∧ d = 0 ∧ u = s)) ∧
      ((s.answerAt d = .ok ∧ commandBody .flush s = .done 0 (u.drawn.sinkSent (.flush .ok)).emptied) ∨
        (∃ x, s.answerAt d = .err x ∧ commandBody .flush s = .ioError (u.drawn.sinkSent (.flush (.err x)))))) := by
  simp only [commandBody, publish]
  by_cases h : 0 < flushCount s
  · rcases sinkWrite_cases (s.buf.firstBytes (flushCount s)) s with ⟨ha, he⟩ | ⟨x, ha, he⟩
    · refine .inr ⟨_, 1, .inl ⟨h, rfl, ha, rfl⟩, ?_⟩
      rw [if_pos h, he]
      have hu : (s.drawn.sinkSent (.write (s.buf.firstBytes (flushCount s)) .ok)).answerAt 0 = s.answerAt 1 := by
        rw [State.answerAt_of_dropped (s := s) (d := 1) (by simp) (by simp)]
      rcases sinkFlush_cases (s.drawn.sinkSent (.write (s.buf.firstBytes (flushCount s)) .ok)) with
        ⟨hb, hf⟩ | ⟨x, hb, hf⟩ <;> rw [hu] at hb
      · exact .inl ⟨hb, by simp [hf]⟩
      · exact .inr ⟨x, hb, by simp [hf]⟩
    · exact .inl ⟨h, x, ha, by rw [if_pos h, he]; rfl⟩
  · refine .inr ⟨s, 0, .inr ⟨by omega, rfl, rfl⟩, ?_⟩
    rw [if_neg h]
    rcases sinkFlush_cases s with ⟨hb, hf⟩ | ⟨x, hb, hf⟩
    · exact .inl ⟨hb, by simp [hf]⟩
    · exact .inr ⟨x, hb, by simp [hf]⟩

/-! What every body keeps -/

/-- The frame of a command body: the fields no body writes, the histories that only grow, the source that only advances, and
EOS, which a body never clears. -/
structure BodyFrame (s t : State) : Prop where
  inbox : t.inbox = s.inbox
  responses : t.responses = s.responses
  capBytes : t.capBytes = s.capBytes
  mode : t.mode = s.mode
  modeCfg : t.modeCfg = s.modeCfg
  fault : t.fault = s.fault
  faultCode : t.faultCode = s.faultCode
  source : t.source = s.source
  sourcePos : s.sourcePos ≤ t.sourcePos
  sourceLog : s.sourceLog <+: t.sourceLog
  sinkLog : s.sinkLog <+: t.sinkLog
  eos : s.eos = true → t.eos = true

theorem BodyFrame.refl (s : State) : BodyFrame s s :=
  ⟨rfl, rfl, rfl, rfl, rfl, rfl, rfl, rfl, le_refl _, List.prefix_rfl, List.prefix_rfl, id⟩

theorem BodyFrame.trans {s t u : State} (h : BodyFrame s t) (g : BodyFrame t u) : BodyFrame s u :=
  ⟨g.inbox.trans h.inbox, g.responses.trans h.responses, g.capBytes.trans h.capBytes, g.mode.trans h.mode,
    g.modeCfg.trans h.modeCfg, g.fault.trans h.fault, g.faultCode.trans h.faultCode, g.source.trans h.source,
    h.sourcePos.trans g.sourcePos, h.sourceLog.trans g.sourceLog, h.sinkLog.trans g.sinkLog, fun x => g.eos (h.eos x)⟩

theorem putBit_frame (b : Bool) (s : State) :
    (∀ t, putBit b s = .done () t → BodyFrame s t) ∧ (∀ t, putBit b s = .ioError t → BodyFrame s t) := by
  rcases putBit_cases b s with ⟨-, he⟩ | ⟨-, -, he⟩ | ⟨x, -, -, he⟩ <;> rw [he] <;>
    refine ⟨fun t h => ?_, fun t h => ?_⟩ <;> cases h <;> constructor <;> simp

theorem getBit_frame (s : State) :
    (∀ b t, getBit s = .done b t → BodyFrame s t) ∧ (∀ t, getBit s = .ioError t → BodyFrame s t) := by
  rcases getBit_cases s with ⟨-, he⟩ | ⟨-, -, he⟩ | ⟨x, -, -, he⟩ <;> rw [he] <;>
    refine ⟨fun b t h => ?_, fun t h => ?_⟩ <;> cases h <;> constructor <;> simp_all [eosAfter]

theorem commandBody_frame (i : Instr) (s : State) :
    (∀ d t, commandBody i s = .done d t → BodyFrame s t) ∧ (∀ t, commandBody i s = .ioError t → BodyFrame s t) := by
  cases i with
  | writeBit b =>
    have hb := putBit_frame b s
    simp only [commandBody]
    cases h : putBit b s with
    | done a u => exact ⟨fun d t ht => by cases ht; exact hb.1 _ h, fun t ht => by cases ht⟩
    | ioError u => exact ⟨fun d t ht => (by cases ht), fun t ht => by cases ht; exact hb.2 _ h⟩
  | readBit =>
    have hb := getBit_frame s
    simp only [commandBody]
    cases h : getBit s with
    | done a u => exact ⟨fun d t ht => by cases ht; exact hb.1 _ _ h, fun t ht => by cases ht⟩
    | ioError u => exact ⟨fun d t ht => (by cases ht), fun t ht => by cases ht; exact hb.2 _ h⟩
  | writeBits n v =>
    have hb := putField_keeps (P := BodyFrame s) (Q := BodyFrame s)
      (fun b x y hx hy => hx.trans ((putBit_frame b x).1 _ hy))
      (fun b x y hx hy => hx.trans ((putBit_frame b x).2 _ hy)) v n.toNat 0 s (.refl s)
    simp only [commandBody]
    cases h : putField v n.toNat 0 s with
    | done a u => exact ⟨fun d t ht => by cases ht; exact hb.1 _ h, fun t ht => by cases ht⟩
    | ioError u => exact ⟨fun d t ht => (by cases ht), fun t ht => by cases ht; exact hb.2 _ h⟩
  | readBits n =>
    exact getField_keeps (P := BodyFrame s) (Q := BodyFrame s)
      (fun b x y hx hy => hx.trans ((getBit_frame x).1 _ _ hy))
      (fun x y hx hy => hx.trans ((getBit_frame x).2 _ hy)) n.toNat 0 0 s (.refl s)
  | flush =>
    rcases flush_cases s with ⟨_, x, _, he⟩ | ⟨u, d, hu, ⟨_, he⟩ | ⟨x, _, he⟩⟩ <;> rw [he] <;>
      refine ⟨fun d t h => ?_, fun t h => ?_⟩ <;> cases h
    · constructor <;> simp
    · rcases hu with ⟨_, _, _, rfl⟩ | ⟨_, _, rfl⟩ <;> constructor <;> simp
    · rcases hu with ⟨_, _, _, rfl⟩ | ⟨_, _, rfl⟩ <;> constructor <;> simp

end Sys2Proof.Machine
end

