-- ==== Sys2Proof/Laws/Fields.lean ====
section
/-! SUPPORT. What a whole field does: how often it drains or refills and where OFFSET ends (spec 40_write.md R77, R78,
41_read.md R87), and what it does to the stream of bits (R75, R85, R48), with every answer `ok` and at a failing drain. -/

namespace Sys2Proof.Machine

/-! Counting drains and refills (R77, R78, R87) -/

@[simp] theorem State.turnovers_zero (s : State) : s.turnovers 0 = 0 := by simp [State.turnovers]

@[simp] theorem State.offsetAfter_zero (s : State) : s.offsetAfter 0 = s.offset := by simp [State.offsetAfter]

theorem State.turnovers_of_room {s t : State} (hc : t.capBytes = s.capBytes) (ho : t.offset = s.offset + 1)
    (h : s.offset < s.capBits) (m : Nat) : s.turnovers (m + 1) = t.turnovers m := by
  have hcb : t.capBits = s.capBits := by simp [State.capBits, hc]
  cases m with
  | zero => simp [State.turnovers, Nat.div_eq_of_lt h]
  | succ m =>
    simp only [State.turnovers, hcb, ho, Nat.succ_ne_zero, if_false]
    congr 1; omega

theorem State.turnovers_of_full {s t : State} (hp : 0 < s.capBits) (hc : t.capBytes = s.capBytes) (ho : t.offset = 1)
    (h : s.offset = s.capBits) (m : Nat) : s.turnovers (m + 1) = t.turnovers m + 1 := by
  have hcb : t.capBits = s.capBits := by simp [State.capBits, hc]
  cases m with
  | zero => simp [State.turnovers, h, Nat.div_self hp]
  | succ m =>
    simp only [State.turnovers, hcb, ho, h, Nat.succ_ne_zero, if_false]
    rw [show s.capBits + (m + 1 + 1) - 1 = (1 + (m + 1) - 1) + s.capBits by omega, Nat.add_div_right _ hp]

theorem State.offsetAfter_of_room {s t : State} (hc : t.capBytes = s.capBytes) (ho : t.offset = s.offset + 1)
    (h : s.offset < s.capBits) (m : Nat) : s.offsetAfter (m + 1) = t.offsetAfter m := by
  have hcb : t.capBits = s.capBits := by simp [State.capBits, hc]
  cases m with
  | zero => simp [State.offsetAfter, Nat.mod_eq_of_lt h, ho]
  | succ m =>
    simp only [State.offsetAfter, hcb, ho, Nat.succ_ne_zero, if_false]
    congr 2; omega

theorem State.offsetAfter_of_full {s t : State} (hc : t.capBytes = s.capBytes) (ho : t.offset = 1)
    (h : s.offset = s.capBits) (m : Nat) : s.offsetAfter (m + 1) = t.offsetAfter m := by
  have hcb : t.capBits = s.capBits := by simp [State.capBits, hc]
  cases m with
  | zero => simp [State.offsetAfter, h, ho]
  | succ m =>
    simp only [State.offsetAfter, hcb, ho, h, Nat.succ_ne_zero, if_false]
    rw [show s.capBits + (m + 1 + 1) - 1 = (1 + (m + 1) - 1) + s.capBits by omega, Nat.add_mod_right]

/-! A field written, every drain answered `ok` (R75, R77, R78) -/

theorem putField_ok (v : Data) (count k : Nat) (s : State) (h : s.WriteReady)
    (ha : s.answersOk (s.turnovers count)) :
    ∃ t, ∃ drained : List (List Byte), putField v count k s = .done () t ∧
      t = { s with
        buf := t.buf, offset := s.offsetAfter count
        sinkLog := s.sinkLog ++ drained.map (fun bytes => .write bytes .ok)
        answers := s.answers.drop (s.turnovers count), drawCount := s.drawCount + s.turnovers count } ∧
      drained.length = s.turnovers count ∧ (∀ bytes ∈ drained, bytes.length = s.capBytes) ∧
      t.writtenBits = s.writtenBits ++ (List.range' k count).map (valueBit v) := by
  induction count generalizing k s with
  | zero => exact ⟨s, [], rfl, by simp, by simp, by simp, by simp⟩
  | succ count ih =>
    simp only [putField]
    by_cases hfull : s.offset = s.capBits
    · have hn := State.turnovers_of_full (s := s) (t := s.drained.storeBit (valueBit v k)) h.1.capBits_pos rfl rfl hfull count
      have h0 : s.answerAt 0 = .ok := ha 0 (by omega)
      have hb := putBit_of_full_ok hfull h0 (valueBit v k)
      have hr := putBit_keeps_ready _ _ _ h hb
      have ha' : (s.drained.storeBit (valueBit v k)).answersOk ((s.drained.storeBit (valueBit v k)).turnovers count) := by
        intro j hj
        rw [State.answerAt_of_dropped (s := s) (d := 1) (by simp) (by simp)]
        exact ha _ (by omega)
      obtain ⟨t, ds, h1, h2, h3, h4, h5⟩ := ih (k + 1) _ hr ha'
      refine ⟨t, s.buf.firstBytes s.capBytes :: ds, ?_, ?_, ?_, ?_, ?_⟩
      · rw [hb]; exact h1
      · refine h2.trans ?_
        rw [State.offsetAfter_of_full (s := s) (t := s.drained.storeBit (valueBit v k)) rfl rfl hfull, hn]
        simp [Nat.add_comm, Nat.add_assoc]
      · rw [hn, List.length_cons, h3]
      · intro bytes hm
        rcases List.mem_cons.1 hm with rfl | hm
        · exact Memory.firstBytes_length _ _
        · exact h4 bytes hm
      · rw [h5, State.writtenBits_storeBit h.drained.1.buf_wf, State.writtenBits_drained hfull, List.range'_succ]
        simp
    · have hlt : s.offset < s.capBits := by have := h.1.offset_le; omega
      have hn := State.turnovers_of_room (s := s) (t := s.storeBit (valueBit v k)) rfl rfl hlt count
      have hb := putBit_of_room hfull (valueBit v k)
      have hr := putBit_keeps_ready _ _ _ h hb
      have ha' : (s.storeBit (valueBit v k)).answersOk ((s.storeBit (valueBit v k)).turnovers count) := by
        intro j hj
        rw [State.answerAt_of_dropped (s := s) (d := 0) (by simp) (by simp)]
        exact ha _ (by omega)
      obtain ⟨t, ds, h1, h2, h3, h4, h5⟩ := ih (k + 1) _ hr ha'
      refine ⟨t, ds, ?_, ?_, ?_, h4, ?_⟩
      · rw [hb]; exact h1
      · refine h2.trans ?_
        rw [State.offsetAfter_of_room (s := s) (t := s.storeBit (valueBit v k)) rfl rfl hlt, hn]
        simp
      · rw [hn, h3]
      · rw [h5, State.writtenBits_storeBit h.1.buf_wf, List.range'_succ]
        simp

/-- A field written with drain number `j` answered `err` (R75, R95): the drains before it went out whole, and together
with the failing one they carry the first bits of BUF and the value. -/
theorem putField_err (v : Data) (count k : Nat) (s : State) (j x : Nat) (h : s.WriteReady) (hj : j < s.turnovers count)
    (ha : s.answersOk j) (he : s.answerAt j = .err x) :
    ∃ t, ∃ (drained : List (List Byte)) (last : List Byte), putField v count k s = .ioError t ∧
      t = { s with
        buf := t.buf, offset := t.offset
        sinkLog := s.sinkLog ++ drained.map (fun bytes => .write bytes .ok) ++ [.write last (.err x)]
        answers := s.answers.drop (j + 1), drawCount := s.drawCount + (j + 1) } ∧
      drained.length = j ∧ (∀ bytes ∈ drained, bytes.length = s.capBytes) ∧ last.length = s.capBytes ∧
      bytesBits (drained.flatten ++ last)
        = (s.buf.bits 0 s.offset ++ (List.range' k count).map (valueBit v)).take (s.capBits * (j + 1)) := by
  induction count generalizing k s j with
  | zero => simp at hj
  | succ count ih =>
    simp only [putField]
    by_cases hfull : s.offset = s.capBits
    · have hn := State.turnovers_of_full (s := s) (t := s.drained.storeBit (valueBit v k)) h.1.capBits_pos rfl rfl hfull count
      cases j with
      | zero =>
        refine ⟨_, [], s.buf.firstBytes s.capBytes, by rw [putBit_of_full_err hfull he]; rfl, ?_, rfl, by simp,
          Memory.firstBytes_length _ _, ?_⟩
        · simp [State.drawn, State.sinkSent]
        · rw [List.flatten_nil, List.nil_append, Memory.bytesBits_firstBytes, hfull, List.take_left']
          · rfl
          · simp [State.capBits]
      | succ j =>
        have h0 : s.answerAt 0 = .ok := ha 0 (by omega)
        have hb := putBit_of_full_ok hfull h0 (valueBit v k)
        have hr := putBit_keeps_ready _ _ _ h hb
        have hshift := State.answerAt_of_dropped (s := s) (t := s.drained.storeBit (valueBit v k)) (d := 1)
          (by simp) (by simp)
        obtain ⟨t, ds, last, h1, h2, h3, h4, h5, h6⟩ := ih (k + 1) _ j hr (by omega)
          (fun i hi => by rw [hshift]; exact ha _ (by omega)) (by rw [hshift, Nat.add_comm]; exact he)
        refine ⟨t, s.buf.firstBytes s.capBytes :: ds, last, ?_, ?_, ?_, ?_, h5, ?_⟩
        · rw [hb]; exact h1
        · refine h2.trans ?_
          simp [Nat.add_comm, Nat.add_left_comm]
        · rw [List.length_cons, h3]
        · intro bytes hm
          rcases List.mem_cons.1 hm with rfl | hm
          · exact Memory.firstBytes_length _ _
          · exact h4 bytes hm
        · have hone : (s.drained.storeBit (valueBit v k)).buf.bits 0 1 = [valueBit v k] := by
            rw [Memory.bits_succ _ (Nat.zero_le _)]
            simp [Memory.bit_setBit Memory.wf_nil]
          have hcb : (s.drained.storeBit (valueBit v k)).capBits = s.capBits := rfl
          have ho : (s.drained.storeBit (valueBit v k)).offset = 1 := rfl
          rw [ho, hone, hcb] at h6
          have hlen : s.capBits * (j + 1 + 1) = (s.buf.bits 0 (8 * s.capBytes)).length + s.capBits * (j + 1) := by
            simp [State.capBits, Nat.mul_succ]; omega
          rw [List.flatten_cons, List.append_assoc, bytesBits_append, h6, Memory.bytesBits_firstBytes, hlen, hfull,
            State.capBits, List.take_length_add_append, List.range'_succ]
          rfl
    · have hlt : s.offset < s.capBits := by have := h.1.offset_le; omega
      have hn := State.turnovers_of_room (s := s) (t := s.storeBit (valueBit v k)) rfl rfl hlt count
      have hb := putBit_of_room hfull (valueBit v k)
      have hr := putBit_keeps_ready _ _ _ h hb
      have hshift := State.answerAt_of_dropped (s := s) (t := s.storeBit (valueBit v k)) (d := 0) (by simp) (by simp)
      obtain ⟨t, ds, last, h1, h2, h3, h4, h5, h6⟩ := ih (k + 1) _ j hr (by omega)
        (fun i hi => by rw [hshift]; exact ha _ (by omega)) (by rw [hshift, Nat.zero_add]; exact he)
      refine ⟨t, ds, last, ?_, ?_, h3, h4, h5, ?_⟩
      · rw [hb]; exact h1
      · refine h2.trans ?_
        simp
      · have hcb : (s.storeBit (valueBit v k)).capBits = s.capBits := rfl
        have hbits : (s.storeBit (valueBit v k)).buf.bits 0 (s.storeBit (valueBit v k)).offset
            = s.buf.bits 0 s.offset ++ [valueBit v k] := by
          rw [State.storeBit_buf, State.storeBit_offset, Memory.bits_succ _ (Nat.zero_le _), Memory.bit_setBit h.1.buf_wf,
            if_pos rfl]
          congr 1
          exact Memory.bits_congr fun p _ hp => by rw [Memory.bit_setBit h.1.buf_wf, if_neg (Nat.ne_of_lt hp)]
        rw [h6, hcb, hbits, List.range'_succ]
        simp

/-! A field read, every refill answered with bytes (R85, R87, R48) -/

theorem getLsbD_assembleBit (k : Nat) (acc : Data) (b : Bool) (j : Nat) :
    (assembleBit acc b k).getLsbD j = (acc.getLsbD j || (decide (j < 32) && decide (j = k) && b)) := by
  simp only [assembleBit, bitData, BitVec.getLsbD_or, BitVec.getLsbD_shiftLeft, BitVec.getLsbD_setWidth,
    BitVec.getLsbD_ofBool]
  by_cases hj : j < 32
  · by_cases hk : j = k
    · subst hk; simp [hj]
    · rcases Nat.lt_or_ge j k with hlt | hge
      · simp [hlt, hk]
      · have h0 : ¬ j - k = 0 := by omega
        simp [hk, h0]
  · simp [hj]

/-- One bit read from a block that has room, or after a refill answered with bytes, comes off the front of the stream. -/
theorem getBit_stream {s : State} (h : s.ReadReady) (hs : s.SourceInStep) (hlt : s.offset < s.capBits) :
    s.buf.bit s.offset = s.unreadBits.getD 0 false ∧ s.bitTaken.unreadBits = s.unreadBits.drop 1 ∧
      s.bitTaken.eos = (s.eos || decide (s.unreadBits.length < 1)) ∧ s.bitTaken.SourceInStep := by
  obtain ⟨hi, hf, hm⟩ := h
  have hstep : s.bitTaken.SourceInStep := fun hr _ hv => hs hr hlt hv
  by_cases hin : s.offset < 8 * s.valid
  · rw [State.unreadBits_bitTaken hin]
    have : ¬ 8 * s.valid ≤ s.offset := by omega
    exact ⟨by simp, by simp, by simp [eosAfter, this], hstep⟩
  · have hv : s.valid < s.capBytes := by simp only [State.capBits] at hlt; omega
    have hrest := hs hm hlt hv
    have hu : s.unreadBits = [] := by
      rw [State.unreadBits, hrest, Memory.bits_of_le _ (by omega)]; rfl
    have hz : s.buf.bit s.offset = false := by
      rw [Memory.bit, hi.read_clean hf hm _ (by simp only [State.capBits] at hlt; omega) (by omega), byteBit_zero]
    have hut : s.bitTaken.unreadBits = [] := by
      have : s.bitTaken.sourceRest = [] := hrest
      rw [State.unreadBits, this, Memory.bits_of_le]
      · rfl
      · show 8 * s.valid ≤ s.offset + 1
        omega
    have : 8 * s.valid ≤ s.offset := by omega
    exact ⟨by simp [hu, hz], by simp [hu, hut], by simp [hu, eosAfter, this], hstep⟩

theorem State.refreshed_in_step {s : State} : s.refreshed.SourceInStep := by
  intro _ _ hv
  have hv' : s.nextBytes.length < s.capBytes := hv
  rw [State.length_nextBytes] at hv'
  show s.source.drop (s.sourcePos + s.nextBytes.length) = []
  have hl : s.sourceRest.length = s.source.length - s.sourcePos := by simp [State.sourceRest]
  apply List.drop_eq_nil_of_le
  rw [State.length_nextBytes]
  omega

theorem getField_ok (count k : Nat) (acc : Data) (s : State) (h : s.ReadReady) (hs : s.SourceInStep)
    (ha : s.answersOk (s.turnovers count)) (hk : k + count ≤ 32) :
    ∃ t value, getField count k acc s = .done value t ∧
      t = { s with
        buf := t.buf, offset := s.offsetAfter count, valid := t.valid
        eos := s.eos || decide (s.unreadBits.length < count)
        sourcePos := t.sourcePos, sourceLog := t.sourceLog
        answers := s.answers.drop (s.turnovers count), drawCount := s.drawCount + s.turnovers count } ∧
      t.sourceLog.length = s.sourceLog.length + s.turnovers count ∧
      (∀ j, value.getLsbD j =
        (acc.getLsbD j || (decide (k ≤ j) && decide (j < k + count) && s.unreadBits.getD (j - k) false))) ∧
      t.unreadBits = s.unreadBits.drop count ∧ t.SourceInStep := by
  induction count generalizing k acc s with
  | zero =>
    refine ⟨s, acc, rfl, by simp, by simp, fun j => ?_, by simp, hs⟩
    by_cases h1 : k ≤ j
    · have h2 : ¬ j < k := by omega
      simp [h2]
    · simp [h1]
  | succ count ih =>
    simp only [getField]
    -- the state whose bit is read: `s` itself, or `s` after its refill
    have key : ∃ (u : State) (d : Nat), u.ReadReady ∧ u.SourceInStep ∧ u.offset < u.capBits ∧
        u.unreadBits = s.unreadBits ∧ u.eos = s.eos ∧ s.turnovers (count + 1) = u.bitTaken.turnovers count + d ∧
        s.offsetAfter (count + 1) = u.bitTaken.offsetAfter count ∧
        u = { s with
          buf := u.buf, offset := u.offset, valid := u.valid, sourcePos := u.sourcePos
          sourceLog := u.sourceLog, answers := s.answers.drop d, drawCount := s.drawCount + d } ∧
        u.sourceLog.length = s.sourceLog.length + d ∧ getBit s = .done (u.buf.bit u.offset) u.bitTaken := by
      by_cases hfull : s.offset = s.capBits
      · have hn := State.turnovers_of_full (s := s) (t := s.refreshed.bitTaken) h.1.capBits_pos rfl rfl hfull count
        have h0 : s.answerAt 0 = .ok := ha 0 (by omega)
        exact ⟨s.refreshed, 1, h.refreshed, State.refreshed_in_step, h.1.capBits_pos,
          State.unreadBits_refreshed hfull h.1.valid_le, rfl, hn,
          State.offsetAfter_of_full (s := s) (t := s.refreshed.bitTaken) rfl rfl hfull count,
          by simp [State.refilled, State.sourceAsked, State.drawn], by simp, getBit_of_consumed_ok hfull h0⟩
      · have hlt : s.offset < s.capBits := by have := h.1.offset_le; omega
        exact ⟨s, 0, h, hs, hlt, rfl, rfl, State.turnovers_of_room (s := s) (t := s.bitTaken) rfl rfl hlt count,
          State.offsetAfter_of_room (s := s) (t := s.bitTaken) rfl rfl hlt count, by simp, by simp, getBit_of_room hfull⟩
    obtain ⟨u, d, hu, hus, hlt, hun, heos, hn, hoff, heq, hlog, hb⟩ := key
    obtain ⟨g1, g2, g3, g4⟩ := getBit_stream hu hus hlt
    have hshift := State.answerAt_of_dropped (s := s) (t := u.bitTaken) (d := d)
      (by rw [State.bitTaken_answers, heq]) (by rw [State.bitTaken_drawCount, heq])
    obtain ⟨t, value, h1, h2, h3, h4, h5, h6⟩ := ih (k + 1) (assembleBit acc (u.buf.bit u.offset) k) u.bitTaken
      (getBit_keeps_ready _ _ _ hu (getBit_of_room (Nat.ne_of_lt hlt))) g4
      (fun i hi => by rw [hshift]; exact ha _ (by omega)) (by omega)
    refine ⟨t, value, ?_, ?_, ?_, ?_, ?_, h6⟩
    · rw [hb]; exact h1
    · refine h2.trans ?_
      have hd : (decide (s.unreadBits.length < 1) || decide ((s.unreadBits.drop 1).length < count))
          = decide (s.unreadBits.length < count + 1) := by
        rw [List.length_drop, ← Bool.decide_or]
        exact decide_eq_decide.2 (by omega)
      rw [hoff, g2, g3, hun, heos, hn, Bool.or_assoc, hd]
      generalize u.bitTaken.turnovers count = n₀
      simp only [State.mk.injEq]
      rw [heq]
      simp [Nat.add_comm]
      omega
    · rw [h3, State.bitTaken_sourceLog, hlog, hn]; omega
    · intro j
      rw [h4 j, getLsbD_assembleBit, g1, g2, hun]
      by_cases hjk : j = k
      · subst hjk
        have h32 : j < 32 := by omega
        simp [h32]
      · rcases Nat.lt_or_ge j k with hlt' | hge
        · have e1 : ¬ k ≤ j := by omega
          have e2 : ¬ k + 1 ≤ j := by omega
          simp [hjk, e1, e2]
        · have e1 : k + 1 ≤ j := by omega
          have e3 : k + 1 + count = k + (count + 1) := by omega
          have e4 : j - k = (j - (k + 1)) + 1 := by omega
          simp [hjk, hge, e1, e3, e4, List.getD_eq_getElem?_getD, Nat.add_comm]
    · rw [h5, g2, hun, List.drop_drop, Nat.add_comm]

end Sys2Proof.Machine
end

