-- ==== Sys2Proof/Laws/PerInstr.lean ====
section
/-! SUPPORT. Facts about each command as syntax, one lemma per constructor: the reserved fields of its word are 0, and its
operands stand in the fields N and DATA of its word (spec 30_encoding.md R58 to R64). -/

namespace Sys2Proof.Laws

namespace ReservedFieldsZero

/-- The reserved fields RES0 and RES1 of a command's word are 0 (R62). -/
def Statement (i : Instr) : Prop := res0Field (encode i) = 0 ∧ res1Field (encode i) = 0

theorem of_encode (i : Instr) : Statement i :=
  ⟨(fields_assemble _ _ _).2.1, (fields_assemble _ _ _).2.2.2.1⟩

theorem writeBit (b : Bool) : Statement (.writeBit b) := of_encode _
theorem writeBits (n : BitVec 6) (value : Data) : Statement (.writeBits n value) := of_encode _
theorem readBit : Statement .readBit := of_encode _
theorem readBits (n : BitVec 6) : Statement (.readBits n) := of_encode _
theorem flush : Statement .flush := of_encode _

end ReservedFieldsZero

namespace OperandsInFields

/-- OP, N and DATA of a command's word are its opcode and its operands (R58, R59). -/
def Statement (i : Instr) : Prop :=
  opField (encode i) = opcodeOf i ∧ nField (encode i) = widthOperand i ∧ dataField (encode i) = dataOperand i

theorem of_encode (i : Instr) : Statement i :=
  ⟨(fields_assemble _ _ _).1, (fields_assemble _ _ _).2.2.1, (fields_assemble _ _ _).2.2.2.2⟩

theorem writeBit (b : Bool) : Statement (.writeBit b) := of_encode _
theorem writeBits (n : BitVec 6) (value : Data) : Statement (.writeBits n value) := of_encode _
theorem readBit : Statement .readBit := of_encode _
theorem readBits (n : BitVec 6) : Statement (.readBits n) := of_encode _
theorem flush : Statement .flush := of_encode _

end OperandsInFields

end Sys2Proof.Laws
end

