-- ==== Sys2Proof/Tests/Slice0.lean ====
section
/-! SUPPORT. The model's own tests. Expected values come from the spec: the words of 30_encoding.md R58, R59, R71 and the
vectors of 95_test_vectors.md. Then one witness for the hypotheses of every statement that has some. -/

namespace Sys2Proof.Tests

open Sys2Proof.Machine

/-! Helpers -/

/-- The next state of an outcome. -/
def nextOf (o : Host.Outcome State Fault Refusal) : Option State :=
  match o with
  | .next t => some t
  | .fault _ => none
  | .refused _ => none

/-- A write-mode block after reset whose sink gives these answers. -/
def writer (cap : Nat) (answers : List PortAnswer) : State := { State.booted cap .write [] with answers := answers }

/-- A read-mode block after reset whose source holds these bytes and gives these answers. -/
def reader (cap : Nat) (source : List Byte) (answers : List PortAnswer) : State :=
  { State.booted cap .read source with answers := answers }

/-- CAP_BYTES = 1 after `WRITE_BITS 8, 0x5A`: full, not yet drained. -/
def fullWriter (answers : List PortAnswer) : State := { writer 1 answers with buf := [(0, 0x5A)], offset := 8 }

/-- 95_test_vectors.md P3 after its first command: CAP_BYTES = 2, 12 bits written. -/
def midWriter (answers : List PortAnswer) : State :=
  { writer 2 answers with buf := [(0, 0xBC), (1, 0x0A)], offset := 12 }

/-- 95_test_vectors.md P4 after its first command: CAP_BYTES = 2, 12 bits read, one source byte left. -/
def midReader (answers : List PortAnswer) : State :=
  { reader 2 [0xBC, 0xEA, 0x0D] answers with
    buf := [(0, 0xBC), (1, 0xEA)], offset := 12, valid := 2, sourcePos := 2
    sourceLog := [⟨2, some [0xBC, 0xEA]⟩] }

/-- A write-mode block with MODE_VIOLATION recorded. -/
def faulted : State := { midWriter [] with fault := true, faultCode := 3 }

/-- The host does this next. -/
def given (s : State) (e : HostEvent) : State := { s with inbox := [e] }

/-- `State.Inv` from its clauses, all decidable on a concrete state. -/
theorem inv_of {s : State}
    (h : (1 ≤ s.capBytes ∧ s.buf.wf ∧ s.buf.within s.capBytes ∧ s.offset ≤ s.capBits ∧ s.valid ≤ s.capBytes) ∧
      (s.faultCode.toNat ≤ 3 ∧ (s.fault = false ↔ s.faultCode = 0) ∧ s.sourcePos ≤ s.source.length ∧
        (s.mode = .write → s.eos = false) ∧ (s.faultCode ≠ 1#4 → s.mode = .write → s.valid = 0)) ∧
      (s.fault = false → s.mode = .write → ∀ p, p < s.capBits → s.offset ≤ p → s.buf.bit p = false) ∧
      (s.fault = false → s.mode = .read → ∀ i, i < s.capBytes → s.valid ≤ i → s.buf.read i = 0#8)) : s.Inv :=
  ⟨h.1.1, h.1.2.1, h.1.2.2.1, h.1.2.2.2.1, h.1.2.2.2.2, h.2.1.1, h.2.1.2.1, h.2.1.2.2.1, h.2.1.2.2.2.1,
    h.2.1.2.2.2.2, h.2.2.1, h.2.2.2⟩

/-- The answers to come do not matter to `State.Inv`. -/
theorem with_answers {s : State} (h : s.Inv) (answers : List PortAnswer) : State.Inv { s with answers := answers } :=
  h.congr rfl rfl rfl rfl rfl rfl rfl rfl h.source_le

theorem fullWriter_inv (answers : List PortAnswer) : (fullWriter answers).Inv :=
  with_answers (s := fullWriter []) (inv_of ⟨by decide, by decide, by decide, by decide⟩) answers
theorem midWriter_inv (answers : List PortAnswer) : (midWriter answers).Inv :=
  with_answers (s := midWriter []) (inv_of ⟨by decide, by decide, by decide, by decide⟩) answers
theorem midReader_inv (answers : List PortAnswer) : (midReader answers).Inv :=
  with_answers (s := midReader []) (inv_of ⟨by decide, by decide, by decide, by decide⟩) answers
theorem newWriter_inv (answers : List PortAnswer) : (writer 1 answers).Inv :=
  with_answers (s := writer 1 []) (inv_of ⟨by decide, by decide, by decide, by decide⟩) answers
theorem emptyReader_inv (answers : List PortAnswer) : (reader 1 [] answers).Inv :=
  with_answers (s := reader 1 [] []) (inv_of ⟨by decide, by decide, by decide, by decide⟩) answers
theorem newReader_inv (answers : List PortAnswer) : (reader 2 [0x80] answers).Inv :=
  with_answers (s := reader 2 [0x80] []) (inv_of ⟨by decide, by decide, by decide, by decide⟩) answers

/-! WellFormed: each check refuses a term (R60) -/

theorem test_wf_refuses_writeBits_33 : (Instr.writeBits 33 0).wf = false := by decide
theorem test_wf_refuses_readBits_33 : (Instr.readBits 33).wf = false := by decide
theorem test_wf_allows_32 : (Instr.writeBits 32 0).wf = true ∧ (Instr.readBits 32).wf = true := by decide

/-! Decode: OP in bits 3:0, N in 13:8, DATA in 63:32 (R58, R59) -/

theorem test_decode_write_bit : decode 0x0000000100000001 = .command (.writeBit true) ∧
    decode 0x0000000000000001 = .command (.writeBit false) := by decide
/-- N = 11 is 0b001011, so bits 13:8 read 001011 and bits 3:0 read 0010. -/
theorem test_decode_write_bits_bit_by_bit :
    decode 0b0000000000000000000000111110100000000000000000000000101100000010 = .command (.writeBits 11 1000) := by decide
theorem test_decode_read_bit : decode 0b0011 = .command .readBit := by decide
theorem test_decode_read_bits : decode 0b100000_0000_0100 = .command (.readBits 32) := by decide
theorem test_decode_flush : decode 0b0101 = .command .flush := by decide
theorem test_decode_reserved_opcodes : decode 0x0 = .illegalCommand ∧ decode 0x6 = .illegalCommand ∧
    decode 0xF = .illegalCommand := by decide
theorem test_decode_nonzero_fields : decode 0x11 = .illegalCommand ∧ decode 0x4002 = .illegalCommand ∧
    decode 0x2102 = .illegalCommand ∧ decode 0x101 = .illegalCommand ∧ decode 0x0000000200000001 = .illegalCommand ∧
    decode 0x0000000100000003 = .illegalCommand ∧ decode 0x8000000000000005 = .illegalCommand := by decide
theorem test_decode_table_word : decodeTableWord 64 0x0000000000000704 = some (.readBits 7) := by decide
theorem test_encode_write_bits : encode (.writeBits 12 0xABC) = 0x00000ABC00000C02 := by decide

/-! One step each (95_test_vectors.md 2.2 to 2.5, P3, P4) -/

theorem test_write_bit_from_reset : (nextOf (exec (.writeBit true) State.reset)).map
    (fun t => (t.buf, t.offset, t.responses)) = some ([(0, 0x01)], 1, [0x0]) := by decide
theorem test_write_bit_drain_error : (nextOf (exec (.writeBit true) (fullWriter [.err 0]))).map
    (fun t => (t.responses, t.faultCode, t.sinkBytes, t.drawCount)) = some ([0x0000000100000000], 1, [], 1) := by decide
theorem test_write_bits_drains_before_bit_8 : (nextOf (exec (.writeBits 9 0x1FF) (writer 1 [.ok]))).map
    (fun t => (t.sinkLog, t.offset, t.buf)) = some ([.write [0xFF] .ok], 1, [(0, 0x01)]) := by decide
theorem test_write_bits_across_the_buffer_end : (nextOf (exec (.writeBits 8 0xDE) (midWriter [.ok]))).map
    (fun t => (t.sinkLog, t.offset, t.buf)) = some ([.write [0xBC, 0xEA] .ok], 4, [(0, 0x0D)]) := by decide
theorem test_read_bit_refills : (nextOf (exec .readBit (reader 4 [0xC2] [.ok]))).map
    (fun t => (t.responses, t.valid, t.offset)) = some ([0x0000002000000000], 1, 1) := by decide
theorem test_read_bit_empty_source : (nextOf (exec .readBit (reader 4 [] [.ok]))).map
    (fun t => (t.responses, t.eos)) = some ([0x0000003000000000], true) := by decide
theorem test_read_bits_32 : (nextOf (exec (.readBits 32) (reader 4 [0xEF, 0xBE, 0xAD, 0xDE] [.ok]))).map
    (fun t => (t.responses, t.sourcePos)) = some ([0x00000020DEADBEEF], 4) := by decide
theorem test_read_bits_across_a_refill : (nextOf (exec (.readBits 8) (midReader [.ok]))).map
    (fun t => (t.responses, t.offset, t.valid, t.eos)) = some ([0x00000020000000DE], 4, 1, false) := by decide
theorem test_flush_full_buffer : (nextOf (exec .flush (fullWriter [.ok, .ok]))).map
    (fun t => (t.sinkLog, t.offset, t.buf)) = some ([.write [0x5A] .ok, .flush .ok], 0, []) := by decide
theorem test_flush_write_error_sends_no_flush : (nextOf (exec .flush (fullWriter [.err 0, .ok]))).map
    (fun t => (t.sinkLog, t.responses)) = some ([.write [0x5A] (.err 0)], [0x0000000100000000]) := by decide
theorem test_step_wrong_mode : (nextOf (step ((writer 1 []).withFetchWord 64 0x0804))).map
    (fun t => (t.responses, t.faultCode)) = some ([0x0000000300000000], 3) := by decide
theorem test_step_illegal_word : (nextOf (step (State.reset.withFetchWord 64 0x0000000200000001))).map
    (fun t => (t.responses, t.faultCode, t.offset)) = some ([0x0000000200000000], 2, 0) := by decide
theorem test_step_reset_in_read_mode : (nextOf (step { (given faulted .reset) with modeCfg := .read })).map
    (fun t => (t.mode, t.offset, t.fault, t.buf)) = some (.read, 16, false, []) := by decide

/-! Witnesses: a state and operands that meet the hypotheses of each statement -/

theorem witness_DecodeReadsBackEveryEncodedCommand :
    (Instr.writeBits 32 0xFFFFFFFF).wf = true ∧ (Instr.readBits 0).wf = true := by decide
theorem witness_DecodedWordIsItsCommandsEncoding : decode 0x0000006100000802 = .command (.writeBits 8 0x61) := by decide
theorem witness_OperandsAreFieldsOfTheWord : decode 0x0000000100000001 = .command (.writeBit true) ∧
    decode 0xFFFFFFFF00002002 = .command (.writeBits 32 0xFFFFFFFF) ∧ decode 0x2004 = .command (.readBits 32) := by decide
theorem witness_StepRunsTheDecodedCommand :
    (given (writer 1 []) (.command 0x3)).inbox = [.command 0x3] ∧ decode 0x3 = .command .readBit := by decide
theorem witness_OneResponsePerCommand : (given (writer 1 []) (.command 0x3)).inbox = [.command 0x3] ∧
    (given (writer 1 []) .reset).inbox = [.reset] ∧ ∀ w, HostEvent.reset ≠ .command w :=
  ⟨rfl, rfl, fun _ h => by cases h⟩
theorem witness_ResponseCarriesTheStatusView :
    (given (midReader []) (.command 0x3)).Inv ∧ (given (midReader []) (.command 0x3)).inbox = [.command 0x3] :=
  ⟨inv_of ⟨by decide, by decide, by decide, by decide⟩, rfl⟩
theorem witness_FaultedBlockOnlyAnswers :
    (given faulted (.command 0x5)).fault = true ∧ (given faulted (.command 0x5)).inbox = [.command 0x5] := by decide
theorem witness_IllegalWordRaisesIllegalCommand : (given (writer 1 []) (.command 0x2102)).inbox = [.command 0x2102] ∧
    (given (writer 1 []) (.command 0x2102)).fault = false ∧ wordIllegal 0x2102 ∧ wordIllegal 0x0 ∧ wordIllegal 0x6 ∧
    wordIllegal 0x11 ∧ wordIllegal 0x4002 ∧ wordIllegal 0x101 ∧ wordIllegal 0x0000000200000001 ∧
    wordIllegal 0x8000000000000005 :=
  ⟨by decide, by decide, by decide, by decide, by decide, by decide, by decide, by decide, by decide, by decide⟩
theorem witness_WidthsAboveMaxNAreIllegal :
    (writer 1 []).fault = false ∧ 32 < (33 : BitVec 6).toNat ∧ 32 < (63 : BitVec 6).toNat := by decide
theorem witness_WrongModeRaisesModeViolation :
    ((Instr.readBits 0).wf = true ∧ (writer 1 []).fault = false ∧ (writer 1 []).mode ≠ neededMode (.readBits 0)) ∧
    Instr.flush.wf = true ∧ (midReader []).fault = false ∧ (midReader []).mode ≠ neededMode .flush := by decide
/-- One witness per clause: already faulted, illegal, wrong mode, executing with every answer `ok` and with an `err`. -/
theorem witness_FirstApplicableFaultIsReported :
    ((given faulted (.command 0x5)).inbox = [.command 0x5] ∧ (given faulted (.command 0x5)).fault = true) ∧
    ((given (writer 1 []) (.command 0x6)).fault = false ∧ wordIllegal 0x6) ∧
    (decode 0x3 = .command .readBit ∧ (given (writer 1 []) (.command 0x3)).fault = false ∧
      (given (writer 1 []) (.command 0x3)).mode ≠ neededMode .readBit) ∧
    (decode 0x1 = .command (.writeBit false) ∧ (given (fullWriter [.ok]) (.command 0x1)).mode = neededMode (.writeBit false) ∧
      (fullWriter [.ok]).answerAt 0 = .ok ∧ (fullWriter [.err 0]).answerAt 0 = .err 0) := by decide
theorem witness_FaultedBufferIsNeverObserved : (given faulted (.command 0x5)).fault = true ∧
    (given faulted (.command 0x5)).inbox = [.command 0x5] ∧ (given faulted .reset).inbox = [.reset] := by decide
theorem witness_OnlyResetEndsAFault : (given faulted .reset).inbox = [.reset] ∧ (given faulted .reset).fault = true ∧
    (given faulted .attachSink).inbox = [.attachSink] ∧ HostEvent.attachSink ≠ .reset := by decide
theorem witness_ResetSetsEveryElement : (given faulted .reset).inbox = [.reset] ∧
    (given faulted .reset).modeCfg = .write ∧ (given (midReader []) .reset).modeCfg = .read := by decide
theorem witness_ResetEstablishesInvariant :
    1 ≤ (midReader []).capBytes ∧ (midReader []).sourcePos ≤ (midReader []).source.length := by decide
theorem witness_ModeCfgIsSampledOnlyAtReset : (given faulted (.driveModeCfg .read)).inbox = [.driveModeCfg .read] ∧
    (given faulted .reset).inbox = [.reset] := by decide
theorem witness_IdleBlockWaits : (writer 1 []).inbox = [] := by decide
theorem witness_AttachingReplacesOnlyTheAgent : (given faulted .attachSink).inbox = [.attachSink] ∧
    (given faulted (.attachSource [0x80])).inbox = [.attachSource [0x80]] := by decide
theorem witness_StepKeepsInvariant :
    (given (fullWriter [.ok]) (.command 0x1)).Inv ∧ ∃ t, step (given (fullWriter [.ok]) (.command 0x1)) = .next t :=
  ⟨inv_of ⟨by decide, by decide, by decide, by decide⟩, _, rfl⟩
theorem witness_CommandsKeepSourceInStep : (midReader [.ok]).Inv ∧ (midReader [.ok]).SourceInStep ∧
    ∃ t, exec (.readBits 8) (midReader [.ok]) = .next t ∧ t.fault = false :=
  ⟨midReader_inv _, by decide, _, rfl, by decide⟩
theorem witness_ModeIsWrittenOnlyByReset : (given faulted .reset).inbox = [.reset] ∧
    (∃ t, step (given faulted .reset) = .next t) ∧ (given faulted .attachSink).inbox = [.attachSink] ∧
    ∃ t, step (given faulted .attachSink) = .next t := ⟨rfl, ⟨_, rfl⟩, rfl, _, rfl⟩
/-- Set by a read past the end; cleared by a reset. -/
theorem witness_EosIsSetByReadsAndClearedByReset :
    (∃ t, step (given (reader 1 [] [.ok]) (.command 0x3)) = .next t ∧
      (given (reader 1 [] [.ok]) (.command 0x3)).eos = false ∧ t.eos = true) ∧
    ∃ t, step { (given (reader 1 [] []) .reset) with eos := true } = .next t ∧ t.eos = false :=
  ⟨⟨_, rfl, rfl, by decide⟩, _, rfl, rfl⟩
theorem witness_PortsOnlyMoveForward : (given (midReader [.ok]) (.command 0x804)).inbox = [.command 0x804] ∧
    (∃ t, step (given (midReader [.ok]) (.command 0x804)) = .next t) ∧ HostEvent.command 0x804 ≠ .attachSink ∧
    ∀ bytes, HostEvent.command 0x804 ≠ .attachSource bytes := ⟨rfl, ⟨_, rfl⟩, by decide, fun _ h => by cases h⟩
theorem witness_OnlyFlushSendsSinkFlush : ∃ t, step (given (writer 1 [.ok]) (.command 0x5)) = .next t ∧
    .flush .ok ∈ t.sinkLog.drop (given (writer 1 [.ok]) (.command 0x5)).sinkLog.length := ⟨_, rfl, by decide⟩
theorem witness_WriteModeNeverReadsValid : (writer 1 []).mode = .write := by decide

theorem witness_WriteBitStoresAtOffset : (midWriter []).Inv ∧ (midWriter []).fault = false ∧ (midWriter []).mode = .write ∧
    (midWriter []).offset < (midWriter []).capBits := ⟨midWriter_inv _, by decide, by decide, by decide⟩
theorem witness_WriteBitDrainsAFullBuffer : (fullWriter [.ok]).Inv ∧ (fullWriter [.ok]).fault = false ∧
    (fullWriter [.ok]).mode = .write ∧ (fullWriter [.ok]).offset = (fullWriter [.ok]).capBits ∧
    (fullWriter [.ok]).answerAt 0 = .ok := ⟨fullWriter_inv _, by decide, by decide, by decide, by decide⟩
theorem witness_WriteBitDrainErrorRaisesIoError : (fullWriter [.err 1]).fault = false ∧
    (fullWriter [.err 1]).mode = .write ∧ (fullWriter [.err 1]).offset = (fullWriter [.err 1]).capBits ∧
    (fullWriter [.err 1]).answerAt 0 = .err 1 := by decide
/-- The widest field into a full one-byte buffer: four drains. -/
theorem witness_WriteBitsAppendsTheField : (fullWriter [.ok, .ok, .ok, .ok]).Inv ∧
    (fullWriter [.ok, .ok, .ok, .ok]).fault = false ∧ (fullWriter [.ok, .ok, .ok, .ok]).mode = .write ∧
    (32 : BitVec 6).toNat ≤ 32 ∧ (fullWriter [.ok, .ok, .ok, .ok]).turnovers (32 : BitVec 6).toNat = 4 ∧
    (fullWriter [.ok, .ok, .ok, .ok]).answersOk ((fullWriter [.ok, .ok, .ok, .ok]).turnovers (32 : BitVec 6).toNat) :=
  ⟨fullWriter_inv _, by decide, by decide, by decide, by decide, by decide⟩
theorem witness_WriteBitsFillsPositionsInOrder : (midWriter []).Inv ∧ (midWriter []).fault = false ∧
    (midWriter []).mode = .write ∧ (4 : BitVec 6).toNat ≤ 32 ∧
    (midWriter []).offset + (4 : BitVec 6).toNat ≤ (midWriter []).capBits :=
  ⟨midWriter_inv _, by decide, by decide, by decide, by decide⟩
/-- The second of four drains fails. -/
theorem witness_WriteBitsStopsAtTheFailingDrain : (fullWriter [.ok, .err 0]).Inv ∧ (fullWriter [.ok, .err 0]).fault = false ∧
    (fullWriter [.ok, .err 0]).mode = .write ∧ (32 : BitVec 6).toNat ≤ 32 ∧
    1 < (fullWriter [.ok, .err 0]).turnovers (32 : BitVec 6).toNat ∧ (fullWriter [.ok, .err 0]).answersOk 1 ∧
    (fullWriter [.ok, .err 0]).answerAt 1 = .err 0 :=
  ⟨fullWriter_inv _, by decide, by decide, by decide, by decide, by decide, by decide⟩
theorem witness_WriteBitsEqualsItsWriteBitRun :
    (midWriter []).fault = false ∧ (midWriter []).mode = .write ∧ (32 : BitVec 6).toNat ≤ 32 := by decide
/-- Both write commands, and a field of width 0. -/
theorem witness_OffsetAfterAWrite : (midWriter [.ok]).Inv ∧ (midWriter [.ok]).fault = false ∧
    (midWriter [.ok]).mode = .write ∧ (∃ t, exec (.writeBit true) (midWriter [.ok]) = .next t ∧ t.fault = false) ∧
    (∃ t, exec (.writeBits 8 0xDE) (midWriter [.ok]) = .next t ∧ t.fault = false) ∧
    ∃ t, exec (.writeBits 0 0xDE) (midWriter [.ok]) = .next t ∧ t.fault = false :=
  ⟨midWriter_inv _, by decide, by decide, ⟨_, rfl, by decide⟩, ⟨_, rfl, by decide⟩, _, rfl, by decide⟩
theorem witness_WriteCommandsTouchOnlyBufferAndSink : (∃ t, exec (.writeBit true) (fullWriter [.ok]) = .next t) ∧
    ∃ t, exec (.writeBits 8 0xDE) (fullWriter [.err 1]) = .next t := ⟨⟨_, rfl⟩, _, rfl⟩

theorem witness_ReadBitTakesTheBitAtOffset : (midReader []).fault = false ∧ (midReader []).mode = .read ∧
    (midReader []).offset ≠ (midReader []).capBits := by decide
theorem witness_ReadBitRefillsAConsumedBuffer : (reader 2 [0x80] [.ok]).Inv ∧ (reader 2 [0x80] [.ok]).fault = false ∧
    (reader 2 [0x80] [.ok]).mode = .read ∧ (reader 2 [0x80] [.ok]).offset = (reader 2 [0x80] [.ok]).capBits ∧
    (reader 2 [0x80] [.ok]).answerAt 0 = .ok := ⟨newReader_inv _, by decide, by decide, by decide, by decide⟩
theorem witness_ReadBitSourceErrorRaisesIoError : (reader 2 [0x80] [.err 1]).fault = false ∧
    (reader 2 [0x80] [.err 1]).mode = .read ∧ (reader 2 [0x80] [.err 1]).offset = (reader 2 [0x80] [.err 1]).capBits ∧
    (reader 2 [0x80] [.err 1]).answerAt 0 = .err 1 := by decide
theorem witness_ReadBitsReturnsTheNextBits : (midReader [.ok, .ok]).Inv ∧ (midReader [.ok, .ok]).SourceInStep ∧
    (midReader [.ok, .ok]).fault = false ∧ (midReader [.ok, .ok]).mode = .read ∧ (32 : BitVec 6).toNat ≤ 32 ∧
    (midReader [.ok, .ok]).answersOk ((midReader [.ok, .ok]).turnovers (32 : BitVec 6).toNat) :=
  ⟨midReader_inv _, by decide, by decide, by decide, by decide, by decide⟩
theorem witness_ReadBitsEqualsItsReadBitRun :
    (midReader []).fault = false ∧ (midReader []).mode = .read ∧ (32 : BitVec 6).toNat ≤ 32 := by decide
theorem witness_ReadPastTheEndReturnsZeros : (reader 1 [] [.ok]).Inv ∧ (reader 1 [] [.ok]).fault = false ∧
    (reader 1 [] [.ok]).mode = .read ∧ (reader 1 [] [.ok]).unreadBits = [] ∧
    (reader 1 [] [.ok]).answersOk ((reader 1 [] [.ok]).turnovers 1) ∧
    (reader 1 [] [.ok, .ok, .ok, .ok]).answersOk ((reader 1 [] [.ok, .ok, .ok, .ok]).turnovers (32 : BitVec 6).toNat) :=
  ⟨emptyReader_inv _, by decide, by decide, by decide, by decide, by decide⟩
theorem witness_ReadCommandsTouchOnlyBufferAndSource : (∃ t, exec .readBit (reader 1 [] [.err 0]) = .next t) ∧
    ∃ t, exec (.readBits 8) (midReader [.ok]) = .next t := ⟨⟨_, rfl⟩, _, rfl⟩
theorem witness_ZeroWidthFieldsOnlyAnswer : (fullWriter []).fault = false ∧ (fullWriter []).mode = .write ∧
    (reader 1 [] []).fault = false ∧ (reader 1 [] []).mode = .read := by decide

/-- Both branches: nothing written, and a partial byte. -/
theorem witness_FlushPublishesAndEmpties : (writer 1 [.ok]).fault = false ∧ (writer 1 [.ok]).mode = .write ∧
    (writer 1 [.ok]).answersOk (if (writer 1 [.ok]).offset = 0 then 1 else 2) ∧
    (midWriter [.ok, .ok]).answersOk (if (midWriter [.ok, .ok]).offset = 0 then 1 else 2) := by decide
/-- One witness per clause. -/
theorem witness_FlushStopsAtTheFirstError :
    ((midWriter [.err 1]).fault = false ∧ (midWriter [.err 1]).mode = .write ∧ (midWriter [.err 1]).offset ≠ 0 ∧
      (midWriter [.err 1]).answerAt 0 = .err 1) ∧
    ((midWriter [.ok, .err 1]).offset ≠ 0 ∧ (midWriter [.ok, .err 1]).answerAt 0 = .ok ∧
      (midWriter [.ok, .err 1]).answerAt 1 = .err 1) ∧
    ((writer 1 [.err 1]).offset = 0 ∧ (writer 1 [.err 1]).answerAt 0 = .err 1) := by decide
theorem witness_FlushPutsEveryWrittenBitInTheSink : (midWriter [.ok, .ok]).Inv ∧ (midWriter [.ok, .ok]).fault = false ∧
    (midWriter [.ok, .ok]).mode = .write ∧ ∃ t, exec .flush (midWriter [.ok, .ok]) = .next t ∧ t.fault = false :=
  ⟨midWriter_inv _, by decide, by decide, _, rfl, by decide⟩
theorem witness_FlushRealignsToAByte : (midWriter [.ok, .ok, .ok]).Inv ∧ (midWriter [.ok, .ok, .ok]).fault = false ∧
    (midWriter [.ok, .ok, .ok]).mode = .write ∧
    ∃ t, exec .flush (midWriter [.ok, .ok, .ok]) = .next t ∧ t.fault = false ∧ t.answerAt 0 = .ok :=
  ⟨midWriter_inv _, by decide, by decide, _, rfl, by decide, by decide⟩
theorem witness_FlushTouchesOnlyBufferAndSink : ∃ t, exec .flush (midWriter [.err 0]) = .next t := ⟨_, rfl⟩

/-- The eight bits of `fullWriter` in a two-byte buffer. -/
def halfWriter (answers : List PortAnswer) : State := { writer 2 answers with buf := [(0, 0x5A)], offset := 8 }

/-- Capacities 1 and 2 with the same eight bits written. -/
theorem witness_WrittenStreamDoesNotDependOnCapacity : (fullWriter [.ok, .ok]).Inv ∧ (halfWriter [.ok, .ok]).Inv ∧
    (fullWriter [.ok, .ok]).fault = false ∧ (halfWriter [.ok, .ok]).fault = false ∧
    (fullWriter [.ok, .ok]).mode = .write ∧ (halfWriter [.ok, .ok]).mode = .write ∧
    (fullWriter [.ok, .ok]).writtenBits = (halfWriter [.ok, .ok]).writtenBits ∧
    (∃ t, exec .flush (fullWriter [.ok, .ok]) = .next t ∧ t.fault = false) ∧
    ∃ t, exec .flush (halfWriter [.ok, .ok]) = .next t ∧ t.fault = false :=
  ⟨fullWriter_inv _, inv_of ⟨by decide, by decide, by decide, by decide⟩, by decide, by decide, by decide, by decide,
    by decide, ⟨_, rfl, by decide⟩, _, rfl, by decide⟩

/-- Capacities 1 and 2 over the same source byte. -/
theorem witness_ReadStreamDoesNotDependOnCapacity : (reader 1 [0x80] [.ok]).Inv ∧ (reader 2 [0x80] [.ok]).Inv ∧
    (reader 1 [0x80] [.ok]).SourceInStep ∧ (reader 2 [0x80] [.ok]).SourceInStep ∧
    (reader 1 [0x80] [.ok]).fault = false ∧ (reader 2 [0x80] [.ok]).fault = false ∧
    (reader 1 [0x80] [.ok]).mode = .read ∧ (reader 2 [0x80] [.ok]).mode = .read ∧
    (reader 1 [0x80] [.ok]).unreadBits = (reader 2 [0x80] [.ok]).unreadBits ∧
    (reader 1 [0x80] [.ok]).eos = (reader 2 [0x80] [.ok]).eos ∧
    (∃ t, exec (.readBits 8) (reader 1 [0x80] [.ok]) = .next t ∧ t.fault = false) ∧
    ∃ t, exec (.readBits 8) (reader 2 [0x80] [.ok]) = .next t ∧ t.fault = false :=
  ⟨inv_of ⟨by decide, by decide, by decide, by decide⟩, newReader_inv _, by decide, by decide, by decide, by decide,
    by decide, by decide, by decide, by decide, ⟨_, rfl, by decide⟩, _, rfl, by decide⟩

/-- 95_test_vectors.md P3 written, then P4's second command on P3's sink bytes. -/
theorem witness_FieldWrittenAndFlushedReadsBack : (8 : BitVec 6).toNat ≤ 32 ∧ (midWriter [.ok, .ok, .ok]).Inv ∧
    (midWriter [.ok, .ok, .ok]).fault = false ∧ (midWriter [.ok, .ok, .ok]).mode = .write ∧
    (∃ w1, exec (.writeBits 8 0xDE) (midWriter [.ok, .ok, .ok]) = .next w1 ∧ ∃ w2, exec .flush w1 = .next w2 ∧
      w2.fault = false ∧
      (midReader [.ok]).unreadBits = (bytesBits w2.sinkBytes).drop (midWriter [.ok, .ok, .ok]).writtenBits.length) ∧
    (midReader [.ok]).Inv ∧ (midReader [.ok]).SourceInStep ∧ (midReader [.ok]).fault = false ∧
    (midReader [.ok]).mode = .read ∧ (midReader [.ok]).answersOk ((midReader [.ok]).turnovers (8 : BitVec 6).toNat) :=
  ⟨by decide, midWriter_inv _, by decide, by decide, ⟨_, rfl, _, rfl, by decide, by decide⟩, midReader_inv _, by decide,
    by decide, by decide, by decide⟩

/-- 95_test_vectors.md P3's first 12 bits, then a final FLUSH. -/
theorem witness_GoodEndOfAWriteRunIsComplete : (given (midWriter [.ok, .ok]) (.command 0x5)).Inv ∧
    (given (midWriter [.ok, .ok]) (.command 0x5)).fault = false ∧
    (given (midWriter [.ok, .ok]) (.command 0x5)).mode = .write ∧
    (given (midWriter [.ok, .ok]) (.command 0x5)).writtenBits
      = bytesBits (writer 2 []).sinkBytes ++ valueBits 0xABC 12 ∧
    (given (midWriter [.ok, .ok]) (.command 0x5)).inbox = [.command 0x5] ∧
    ∃ t, step (given (midWriter [.ok, .ok]) (.command 0x5)) = .next t ∧ EndsWell 0x5 t :=
  ⟨inv_of ⟨by decide, by decide, by decide, by decide⟩, by decide, by decide, by decide, rfl, _, rfl, by decide⟩

end Sys2Proof.Tests
end

/-! Proofs of the state family (10_state.md): first rules that hold for every command body, then what a command word can
lead to, and from these the invariant, the responses, MODE, EOS, MODE_CFG and VALID. -/

namespace Sys2Proof.Machine

/-! ### The decoder and the response word -/

/-- The decoder yields no field width above 32 (R60, R63). -/
theorem wf_of_decode {w : CommandWord} {i : Instr} (h : decode w = .command i) : i.wf = true := by
  simp only [decode] at h
  split_ifs at h <;> cases h <;> simp_all [Instr.wf]

@[simp] theorem responseData_responseWord (c : BitVec 4) (d : Data) (e : Bool) (m : Mode) :
    responseData (responseWord c d e m) = d := by
  apply BitVec.eq_of_getLsbD_eq
  intro i hi
  simp [responseData, getLsbD_responseWord, hi]

@[simp] theorem responseStatus_responseWord (c : BitVec 4) (d : Data) (e : Bool) (m : Mode) :
    responseStatus (responseWord c d e m) = c := by
  apply BitVec.eq_of_getLsbD_eq
  intro i hi
  have : 32 + i < 36 := by omega
  simp [responseStatus, getLsbD_responseWord, hi, this]

@[simp] theorem responseEos_responseWord (c : BitVec 4) (d : Data) (e : Bool) (m : Mode) :
    responseEos (responseWord c d e m) = e :=
  (getLsbD_responseWord c d e m 36).trans (by simp)

@[simp] theorem responseMode_responseWord (c : BitVec 4) (d : Data) (e : Bool) (m : Mode) :
    responseMode (responseWord c d e m) = m.bit :=
  (getLsbD_responseWord c d e m 37).trans (by simp)

/-- Bits 63:38 of a response word are 0 (R66). -/
@[simp] theorem high_bits_responseWord (c : BitVec 4) (d : Data) (e : Bool) (m : Mode) :
    (responseWord c d e m).extractLsb' 38 26 = 0#26 := by
  apply BitVec.eq_of_getLsbD_eq
  intro i hi
  have h32 : ¬ 38 + i < 32 := by omega
  have h36 : ¬ 38 + i < 36 := by omega
  have h37 : ¬ 38 + i = 36 ∧ ¬ 38 + i = 37 := by omega
  simp [getLsbD_responseWord, h32, h36, h37]

/-! ### Two-ended postconditions of a part of a command -/

/-- `P` holds where the part went through, `Q` where a port answered `err`. -/
def Progress.Meets {α : Type} (P Q : State → Prop) : Progress α → Prop
  | .done _ s => P s
  | .ioError s => Q s

variable {P Q : State → Prop}

theorem Progress.meets_iff {α : Type} {r : Progress α} :
    r.Meets P Q ↔ (∀ a t, r = .done a t → P t) ∧ (∀ t, r = .ioError t → Q t) := by
  cases r <;> simp [Progress.Meets]

theorem Progress.Meets.bind {α β : Type} {r : Progress α} {k : α → State → Progress β} (h : r.Meets P Q)
    (hk : ∀ a t, P t → (k a t).Meets P Q) : (r.bind k).Meets P Q := by
  cases r with
  | done a t => exact hk a t h
  | ioError t => exact h

/-- What the write commands and FLUSH keep: `P` from one primitive to the next, `Q` where a transaction fails. -/
structure KeptByWriting (P Q : State → Prop) : Prop where
  putBit : ∀ b s, P s → (putBit b s).Meets P Q
  sent : ∀ s x, P s → P (s.drawn.sinkSent x)
  emptied : ∀ s, P s → P s.emptied
  weaken : ∀ s, P s → Q s

theorem KeptByWriting.sinkWrite (h : KeptByWriting P Q) (bytes : List Byte) {s : State} (hs : P s) :
    (sinkWrite bytes s).Meets P Q := by
  rcases sinkWrite_cases bytes s with ⟨-, he⟩ | ⟨x, -, he⟩ <;> rw [he]
  · exact h.sent s _ hs
  · exact h.weaken _ (h.sent s _ hs)

theorem KeptByWriting.sinkFlush (h : KeptByWriting P Q) {s : State} (hs : P s) : (sinkFlush s).Meets P Q := by
  rcases sinkFlush_cases s with ⟨-, he⟩ | ⟨x, -, he⟩ <;> rw [he]
  · exact h.sent s _ hs
  · exact h.weaken _ (h.sent s _ hs)

theorem KeptByWriting.publish (h : KeptByWriting P Q) {s : State} (hs : P s) : (publish s).Meets P Q := by
  unfold Machine.publish
  split
  · exact h.sinkWrite _ hs
  · exact hs

theorem KeptByWriting.commandBody (h : KeptByWriting P Q) {i : Instr} (hi : neededMode i = .write) {s : State}
    (hs : P s) : (commandBody i s).Meets P Q := by
  cases i with
  | writeBit b => exact (h.putBit b s hs).bind fun _ _ ht => ht
  | writeBits n v =>
    have hfield := putField_keeps (fun b s t hs => (Progress.meets_iff.1 (h.putBit b s hs)).1 () t)
      (fun b s t hs => (Progress.meets_iff.1 (h.putBit b s hs)).2 t) v n.toNat 0 s hs
    exact (Progress.meets_iff.2 ⟨fun _ => hfield.1, hfield.2⟩).bind fun _ _ ht => ht
  | readBit => cases hi
  | readBits n => cases hi
  | flush => exact (h.publish hs).bind fun _ _ ht => (h.sinkFlush ht).bind fun _ v hv => h.emptied v hv

theorem readBody_meets (hbit : ∀ s, P s → (getBit s).Meets P Q) {i : Instr} (hi : neededMode i = .read) {s : State}
    (hs : P s) : (commandBody i s).Meets P Q := by
  cases i with
  | writeBit b => cases hi
  | writeBits n v => cases hi
  | readBit => exact (hbit s hs).bind fun _ _ ht => ht
  | readBits n =>
    exact Progress.meets_iff.2 (getField_keeps (fun b s t hs => (Progress.meets_iff.1 (hbit s hs)).1 b t)
      (fun s t hs => (Progress.meets_iff.1 (hbit s hs)).2 t) n.toNat 0 0 s hs)
  | flush => cases hi

/-- `t` is `s` but for BUF, OFFSET, the sink port and the answers drawn: all that the body of a write command or of FLUSH
changes (R79, R92). -/
def OnlyWrites (s t : State) : Prop :=
  ∃ buf offset sinkLog answers drawCount,
    t = { s with buf := buf, offset := offset, sinkLog := sinkLog, answers := answers, drawCount := drawCount }

theorem OnlyWrites.refl (s : State) : OnlyWrites s s := ⟨_, _, _, _, _, rfl⟩

theorem OnlyWrites.trans {s t u : State} : OnlyWrites s t → OnlyWrites t u → OnlyWrites s u := by
  rintro ⟨_, _, _, _, _, rfl⟩ ⟨_, _, _, _, _, rfl⟩
  exact ⟨_, _, _, _, _, rfl⟩

theorem OnlyWrites.eos {s t : State} : OnlyWrites s t → t.eos = s.eos := by
  rintro ⟨_, _, _, _, _, rfl⟩; rfl

theorem OnlyWrites.valid {s t : State} : OnlyWrites s t → t.valid = s.valid := by
  rintro ⟨_, _, _, _, _, rfl⟩; rfl

theorem onlyWrites_kept (s : State) : KeptByWriting (OnlyWrites s) (OnlyWrites s) where
  putBit b t h := by
    rcases putBit_cases b t with ⟨-, he⟩ | ⟨-, -, he⟩ | ⟨x, -, -, he⟩ <;> rw [he] <;>
      exact h.trans ⟨_, _, _, _, _, rfl⟩
  sent _ _ h := h.trans ⟨_, _, _, _, _, rfl⟩
  emptied _ h := h.trans ⟨_, _, _, _, _, rfl⟩
  weaken _ h := h

theorem writeBody_onlyWrites {i : Instr} (hi : neededMode i = .write) (s : State) :
    (commandBody i s).Meets (OnlyWrites s) (OnlyWrites s) := (onlyWrites_kept s).commandBody hi (.refl s)

/-! ### What a command word can lead to -/

/-- The five ways a command word is answered (R98, R100), with the state each leads to. -/
inductive Accepted (w : CommandWord) (s : State) : State → Prop
  | faulted (hf : s.fault = true) : Accepted w s (s.respond s.faultCode 0)
  | illegal (hf : s.fault = false) (hw : decode w = .illegalCommand) : Accepted w s (s.raise .illegalCommand)
  | wrongMode (hf : s.fault = false) (i : Instr) (hw : decode w = .command i) (hm : s.mode ≠ neededMode i) :
      Accepted w s (s.raise .modeViolation)
  | completed (hf : s.fault = false) (i : Instr) (hw : decode w = .command i) (hm : s.mode = neededMode i)
      (d : Data) (u : State) (hb : commandBody i s = .done d u) : Accepted w s (u.respond statusOk d)
  | failed (hf : s.fault = false) (i : Instr) (hw : decode w = .command i) (hm : s.mode = neededMode i)
      (u : State) (hb : commandBody i s = .ioError u) : Accepted w s (u.scrambled.raise .ioError)

theorem accept_cases (w : CommandWord) (s : State) : ∃ t, accept exec w s = .next t ∧ Accepted w s t := by
  unfold accept
  cases hf : s.fault with
  | true => exact ⟨_, rfl, .faulted hf⟩
  | false =>
    cases hw : decode w with
    | illegalCommand => exact ⟨_, rfl, .illegal hf hw⟩
    | command i =>
      refine ⟨_, exec_eq i s, ?_⟩
      rcases enter_cases (neededMode i) i.wf (commandBody i) s with
        ⟨h, -⟩ | ⟨-, h, -⟩ | ⟨-, -, hm, he⟩ | ⟨-, -, hm, d, u, hb, he⟩ | ⟨-, -, hm, u, hb, he⟩
      · rw [hf] at h; cases h
      · rw [wf_of_decode hw] at h; cases h
      · rw [he]; exact .wrongMode hf i hw hm
      · rw [he]; exact .completed hf i hw hm d u hb
      · rw [he]; exact .failed hf i hw hm u hb

theorem accepted_of_step {s t : State} {w : CommandWord} {rest : List HostEvent} (hi : s.inbox = .command w :: rest)
    (hs : step s = .next t) : Accepted w { s with inbox := rest } t := by
  obtain ⟨u, hu, ha⟩ := accept_cases w { s with inbox := rest }
  rw [step_of_event hi] at hs
  cases hs.symm.trans hu
  exact ha

/-- The frame of an accepted command word: it adds one response, and keeps, grows or advances everything but BUF, OFFSET,
VALID, the fault flags and the answers drawn. -/
structure CommandFrame (s t : State) : Prop where
  inbox : t.inbox = s.inbox
  responses : ∃ r, t.responses = s.responses ++ [r]
  capBytes : t.capBytes = s.capBytes
  mode : t.mode = s.mode
  modeCfg : t.modeCfg = s.modeCfg
  source : t.source = s.source
  sourcePos : s.sourcePos ≤ t.sourcePos
  sourceLog : s.sourceLog <+: t.sourceLog
  sinkLog : s.sinkLog <+: t.sinkLog
  eos : s.eos = true → t.eos = true

theorem BodyFrame.answered {s u : State} (h : BodyFrame s u) (buf : Memory) (offset valid : Nat) (fault : Bool)
    (code : BitVec 4) (r : ResponseWord) :
    CommandFrame s { u with
      buf := buf, offset := offset, valid := valid, fault := fault, faultCode := code
      responses := u.responses ++ [r] } :=
  ⟨h.inbox, ⟨r, congrArg (· ++ [r]) h.responses⟩, h.capBytes, h.mode, h.modeCfg, h.source, h.sourcePos, h.sourceLog,
    h.sinkLog, h.eos⟩

theorem Accepted.frame {w : CommandWord} {s t : State} (h : Accepted w s t) : CommandFrame s t := by
  cases h with
  | faulted => exact (BodyFrame.refl s).answered _ _ _ _ _ _
  | illegal => exact (BodyFrame.refl s).answered _ _ _ _ _ _
  | wrongMode => exact (BodyFrame.refl s).answered _ _ _ _ _ _
  | completed _ i _ _ d u hb => exact ((commandBody_frame i s).1 d u hb).answered _ _ _ _ _ _
  | failed _ i _ _ u hb => exact ((commandBody_frame i s).2 u hb).answered _ _ _ _ _ _

/-! ### The invariant -/

theorem writeReady_kept : KeptByWriting State.WriteReady State.Inv where
  putBit b s h := Progress.meets_iff.2 ⟨fun _ t => putBit_keeps_ready b s t h, fun t => putBit_error_keeps_inv b s t h⟩
  sent _ x h := h.sinkSent x
  emptied _ h := h.emptied
  weaken _ h := h.1

theorem commandBody_keeps_inv {i : Instr} {s : State} (h : s.Inv) (hf : s.fault = false) (hm : s.mode = neededMode i) :
    (commandBody i s).Meets State.Inv State.Inv := by
  cases hi : neededMode i with
  | write =>
    have := Progress.meets_iff.1 (writeReady_kept.commandBody hi ⟨h, hf, hm.trans hi⟩)
    exact Progress.meets_iff.2 ⟨fun d t ht => (this.1 d t ht).1, this.2⟩
  | read =>
    have := Progress.meets_iff.1 (readBody_meets (fun s h => Progress.meets_iff.2
      ⟨fun b t => getBit_keeps_ready b s t h, fun t => getBit_error_keeps_inv s t h⟩) hi ⟨h, hf, hm.trans hi⟩)
    exact Progress.meets_iff.2 ⟨fun d t ht => (this.1 d t ht).1, this.2⟩

theorem Accepted.keeps_inv {w : CommandWord} {s t : State} (h : Accepted w s t) (hs : s.Inv) : t.Inv := by
  cases h with
  | faulted => exact hs.respond _ _
  | illegal hf => exact hs.raise hf _
  | wrongMode hf => exact hs.raise hf _
  | completed hf i _ hm d u hb =>
    exact ((Progress.meets_iff.1 (commandBody_keeps_inv hs hf hm)).1 d u hb).respond _ _
  | failed hf i _ hm u hb =>
    exact ((Progress.meets_iff.1 (commandBody_keeps_inv hs hf hm)).2 u hb).scrambled_raise

theorem State.resetBlock_inv {s : State} (hc : 1 ≤ s.capBytes) (hp : s.sourcePos ≤ s.source.length) :
    s.resetBlock.Inv where
  cap_pos := hc
  buf_wf := Memory.wf_nil
  buf_within := Memory.within_nil _
  offset_le := by
    rw [State.resetBlock_offset]
    cases s.modeCfg with
    | write => exact Nat.zero_le _
    | read => exact Nat.le_refl _
  valid_le := Nat.zero_le _
  code_le := Nat.zero_le _
  code_zero := by simp
  source_le := hp
  write_eos _ := rfl
  write_valid _ _ := rfl
  write_clean _ _ p _ _ := Memory.bit_nil p
  read_clean _ _ _ _ _ := rfl

/-- A block reset in read mode is consumed, so its empty buffer says nothing of the source. -/
theorem State.resetBlock_sourceInStep (s : State) : s.resetBlock.SourceInStep := by
  intro hm ho
  rw [State.resetBlock_mode] at hm
  rw [State.resetBlock_offset, hm] at ho
  exact absurd ho (Nat.lt_irrefl _)

theorem State.Inv.inbox {s : State} (h : s.Inv) (rest : List HostEvent) : State.Inv { s with inbox := rest } :=
  h.congr rfl rfl rfl rfl rfl rfl rfl rfl h.source_le

theorem handleEvent_keeps_inv {e : HostEvent} {s t : State} (h : s.Inv) (ht : handleEvent exec e s = .next t) : t.Inv := by
  cases e with
  | driveModeCfg m => cases ht; exact h.congr rfl rfl rfl rfl rfl rfl rfl rfl h.source_le
  | attachSink => cases ht; exact h.congr rfl rfl rfl rfl rfl rfl rfl rfl h.source_le
  | attachSource bytes => cases ht; exact h.congr rfl rfl rfl rfl rfl rfl rfl rfl (Nat.zero_le _)
  | reset => cases ht; exact State.resetBlock_inv h.cap_pos h.source_le
  | command w =>
    obtain ⟨u, hu, ha⟩ := accept_cases w s
    cases ht.symm.trans hu
    exact ha.keeps_inv h

/-- Settles O25, event by event; a command word by the five ways it is answered, and a command's body bit by bit. -/
theorem stepKeepsInvariant : Obligations.StepKeepsInvariant := by
  intro s t h ht
  cases hi : s.inbox with
  | nil =>
    have hidle : step s = .next s := by simp [step, takeEvent, hi]
    cases ht.symm.trans hidle
    exact h
  | cons e rest =>
    rw [step_of_event hi] at ht
    exact handleEvent_keeps_inv (h.inbox rest) ht

/-- Settles O21: every element R35 sets meets its clause of the invariant. -/
theorem resetEstablishesInvariant : Obligations.ResetEstablishesInvariant :=
  fun s hc hp => ⟨State.resetBlock_inv hc hp, s.resetBlock_sourceInStep⟩

/-- Settles O20: a reset leaves the reset state as it is, and so establishes the invariant there. -/
theorem resetStateMeetsInvariant : Obligations.ResetStateMeetsInvariant := by
  have h : State.reset.resetBlock = State.reset := rfl
  unfold Obligations.ResetStateMeetsInvariant
  rw [← h]
  exact ⟨State.resetBlock_inv (by decide) (by decide), State.reset.resetBlock_sourceInStep⟩

/-- Settles O19: the values stand in the definition of `State.booted`. -/
theorem resetStateHasTheSpecValues : Obligations.ResetStateHasTheSpecValues :=
  ⟨rfl, rfl, rfl, rfl, rfl, rfl, rfl, rfl, rfl, rfl, rfl⟩

theorem step_of_reset {s : State} {rest : List HostEvent} (h : s.inbox = .reset :: rest) :
    step s = .next (State.resetBlock { s with inbox := rest }) := step_of_event h

/-- Settles O18, from the values `State.resetBlock` gives; OFFSET by the level of MODE_CFG. -/
theorem resetSetsEveryElement : Obligations.ResetSetsEveryElement := by
  intro s rest h
  refine ⟨_, step_of_reset h, rfl, fun _ => rfl, fun hm => ?_, fun hm => ?_⟩
  · rw [State.resetBlock_offset, hm]
  · rw [State.resetBlock_offset, hm]; rfl

/-! ### Responses -/

/-- Settles O9: a command word is answered once (`CommandFrame`), every other event touches no response. -/
theorem oneResponsePerCommand : Obligations.OneResponsePerCommand := by
  intro s e rest h
  have hstep := step_of_event h
  cases e with
  | command w =>
    obtain ⟨t, ht, ha⟩ := accept_cases w { s with inbox := rest }
    obtain ⟨r, hr⟩ := ha.frame.responses
    exact ⟨t, [r], hstep.trans ht, ha.frame.inbox, hr, fun _ => rfl, fun hne => absurd rfl (hne w)⟩
  | driveModeCfg m => exact ⟨_, [], hstep, rfl, (List.append_nil _).symm, nofun, fun _ => rfl⟩
  | attachSink => exact ⟨_, [], hstep, rfl, (List.append_nil _).symm, nofun, fun _ => rfl⟩
  | attachSource bytes => exact ⟨_, [], hstep, rfl, (List.append_nil _).symm, nofun, fun _ => rfl⟩
  | reset => exact ⟨_, [], hstep, rfl, (List.append_nil _).symm, nofun, fun _ => rfl⟩

/-- Whatever happens, the block answers with FAULT_CODE as it then is, and with data only where that is 0 (R66, R67). -/
theorem Accepted.answer {w : CommandWord} {s t : State} (h : Accepted w s t) (hs : s.Inv) :
    ∃ (x : State) (d : Data), t = x.respond x.faultCode d ∧ x.responses = s.responses ∧ (x.faultCode ≠ 0#4 → d = 0#32) := by
  cases h with
  | faulted => exact ⟨s, 0, rfl, rfl, fun _ => rfl⟩
  | illegal => exact ⟨s.faulted .illegalCommand, 0, rfl, rfl, fun _ => rfl⟩
  | wrongMode => exact ⟨s.faulted .modeViolation, 0, rfl, rfl, fun _ => rfl⟩
  | completed hf i _ _ d u hb =>
    have frame := (commandBody_frame i s).1 d u hb
    have hcode : u.faultCode = statusOk := frame.faultCode.trans (hs.code_zero.1 hf)
    exact ⟨u, d, by rw [hcode], frame.responses, fun hne => absurd hcode hne⟩
  | failed _ i _ _ u hb =>
    exact ⟨u.scrambled.faulted .ioError, 0, rfl, ((commandBody_frame i s).2 u hb).responses, fun _ => rfl⟩

/-- Settles O10, from the one form every answer has (`Accepted.answer`) and the invariant of the state after it. -/
theorem responseCarriesTheStatusView : Obligations.ResponseCarriesTheStatusView := by
  intro s w rest hinv hin
  obtain ⟨t, ht, ha⟩ := accept_cases w { s with inbox := rest }
  have htinv : t.Inv := ha.keeps_inv (hinv.inbox rest)
  obtain ⟨x, d, rfl, hr, hd⟩ := ha.answer (hinv.inbox rest)
  refine ⟨_, responseWord x.faultCode d x.eos x.mode, (step_of_event hin).trans ht, ?_, ?_⟩
  · rw [State.respond_responses, hr]
  · simpa using ⟨htinv.code_zero.symm, htinv.code_le, hd⟩

/-! ### MODE and EOS -/

/-- Settles O28: a command word keeps both (`CommandFrame`), and of the other events only a reset writes MODE. -/
theorem modeIsWrittenOnlyByReset : Obligations.ModeIsWrittenOnlyByReset := by
  intro s t e rest h ht
  cases e with
  | command w =>
    have frame := (accepted_of_step h ht).frame
    exact ⟨frame.capBytes, fun _ => frame.mode, nofun⟩
  | reset => cases (step_of_event h).symm.trans ht; exact ⟨rfl, fun hne => absurd rfl hne, fun _ => rfl⟩
  | driveModeCfg m => cases (step_of_event h).symm.trans ht; exact ⟨rfl, fun _ => rfl, nofun⟩
  | attachSink => cases (step_of_event h).symm.trans ht; exact ⟨rfl, fun _ => rfl, nofun⟩
  | attachSource bytes => cases (step_of_event h).symm.trans ht; exact ⟨rfl, fun _ => rfl, nofun⟩

theorem neededMode_eq_read {i : Instr} (h : neededMode i = .read) : i = .readBit ∨ ∃ n, i = .readBits n := by
  cases i with
  | readBit => exact .inl rfl
  | readBits n => exact .inr ⟨n, rfl⟩
  | writeBit b => cases h
  | writeBits n v => cases h
  | flush => cases h

theorem decode_read_of_neededMode {w : CommandWord} {i : Instr} (hw : decode w = .command i)
    (hi : neededMode i = .read) : decode w = .command .readBit ∨ ∃ n, decode w = .command (.readBits n) := by
  rcases neededMode_eq_read hi with rfl | ⟨n, rfl⟩
  · exact .inl hw
  · exact .inr ⟨n, hw⟩

/-- A body that changes EOS belongs to a read command: write commands and FLUSH do not touch it (R79, R92). -/
theorem neededMode_eq_read_of_eos_ne {i : Instr} {s u : State}
    (hu : (∃ d, commandBody i s = .done d u) ∨ commandBody i s = .ioError u) (he : u.eos ≠ s.eos) :
    neededMode i = .read := by
  cases hi : neededMode i with
  | read => rfl
  | write =>
    have hw := Progress.meets_iff.1 (writeBody_onlyWrites hi s)
    rcases hu with ⟨d, hd⟩ | hd
    · exact absurd (hw.1 d u hd).eos he
    · exact absurd (hw.2 u hd).eos he

theorem Accepted.read_of_eos_ne {w : CommandWord} {s t : State} (h : Accepted w s t) (he : t.eos ≠ s.eos) :
    s.mode = .read ∧ (decode w = .command .readBit ∨ ∃ n, decode w = .command (.readBits n)) := by
  cases h with
  | faulted => exact absurd rfl he
  | illegal => exact absurd rfl he
  | wrongMode => exact absurd rfl he
  | completed _ i hw hm d u hb =>
    have hi := neededMode_eq_read_of_eos_ne (.inl ⟨d, hb⟩) he
    exact ⟨hm.trans hi, decode_read_of_neededMode hw hi⟩
  | failed _ i hw hm u hb =>
    have hi := neededMode_eq_read_of_eos_ne (.inr hb) he
    exact ⟨hm.trans hi, decode_read_of_neededMode hw hi⟩

/-- Settles O29: no command clears EOS (`CommandFrame`), only the body of a read command sets it, and no event but a
reset and a command touches it. -/
theorem eosIsSetByReadsAndClearedByReset : Obligations.EosIsSetByReadsAndClearedByReset := by
  intro s t e rest h ht
  by_cases hr : e = .reset
  · subst hr
    cases (step_of_event h).symm.trans ht
    exact ⟨fun _ _ => rfl, nofun⟩
  by_cases hc : ∃ w, e = .command w
  · obtain ⟨w, rfl⟩ := hc
    have ha := accepted_of_step h ht
    refine ⟨fun hs hn => ?_, fun hs hn => ?_⟩
    · exact absurd (ha.frame.eos hs) (by simp [hn])
    · obtain ⟨hm, hd⟩ := ha.read_of_eos_ne (by simp [hs, hn])
      exact ⟨hm, w, rfl, hd⟩
  · have hkeep : t.eos = s.eos := by
      cases e with
      | reset => exact absurd rfl hr
      | command w => exact absurd ⟨w, rfl⟩ hc
      | driveModeCfg m => cases (step_of_event h).symm.trans ht; rfl
      | attachSink => cases (step_of_event h).symm.trans ht; rfl
      | attachSource bytes => cases (step_of_event h).symm.trans ht; rfl
    exact ⟨fun hs hn => by simp [hkeep, hs] at hn, fun hs hn => by simp [hkeep, hs] at hn⟩

/-! ### Fields that a command's body does not read -/

/-- The same progress with the state changed by `f`. -/
def Progress.mapState {α : Type} (f : State → State) : Progress α → Progress α
  | .done a s => .done a (f s)
  | .ioError s => .ioError (f s)

theorem Progress.bind_commutes {α β : Type} {f : State → State} {r r' : Progress α} {k k' : α → State → Progress β}
    (hr : r' = r.mapState f) (hk : ∀ a t, k' a (f t) = (k a t).mapState f) :
    r'.bind k' = (r.bind k).mapState f := by
  subst hr
  cases r with
  | done a t => exact hk a t
  | ioError t => rfl

/-- `f` changes nothing that writing reads, and writing changes nothing that `f` does. -/
structure WriteBlind (f : State → State) : Prop where
  capBytes : ∀ s, (f s).capBytes = s.capBytes
  buf : ∀ s, (f s).buf = s.buf
  offset : ∀ s, (f s).offset = s.offset
  answerAt : ∀ s k, (f s).answerAt k = s.answerAt k
  sent : ∀ s x, (f s).drawn.sinkSent x = f (s.drawn.sinkSent x)
  emptied : ∀ s, (f s).emptied = f s.emptied
  storeBit : ∀ s b, (f s).storeBit b = f (s.storeBit b)

section
variable {f : State → State} (h : WriteBlind f)
include h

theorem WriteBlind.sinkWrite (bytes : List Byte) (s : State) :
    sinkWrite bytes (f s) = (sinkWrite bytes s).mapState f := by
  rcases sinkWrite_cases bytes s with ⟨ha, he⟩ | ⟨x, ha, he⟩ <;> rw [he]
  · rw [sinkWrite_ok ((h.answerAt s 0).trans ha), h.sent]; rfl
  · rw [sinkWrite_err ((h.answerAt s 0).trans ha), h.sent]; rfl

theorem WriteBlind.sinkFlush (s : State) : sinkFlush (f s) = (sinkFlush s).mapState f := by
  rcases sinkFlush_cases s with ⟨ha, he⟩ | ⟨x, ha, he⟩ <;> rw [he]
  · rw [sinkFlush_ok ((h.answerAt s 0).trans ha), h.sent]; rfl
  · rw [sinkFlush_err ((h.answerAt s 0).trans ha), h.sent]; rfl

theorem WriteBlind.drainIfFull (s : State) : drainIfFull (f s) = (drainIfFull s).mapState f := by
  have hcap : (f s).capBits = s.capBits := congrArg (8 * ·) (h.capBytes s)
  unfold Machine.drainIfFull drain
  rw [h.offset, hcap, h.buf, h.capBytes]
  split
  · exact Progress.bind_commutes (h.sinkWrite _ s) fun _ t => congrArg (Progress.done ()) (h.emptied t)
  · rfl

theorem WriteBlind.putBit (b : Bool) (s : State) : putBit b (f s) = (putBit b s).mapState f :=
  Progress.bind_commutes (h.drainIfFull s) fun _ t => congrArg (Progress.done ()) (h.storeBit t b)

theorem WriteBlind.putField (v : Data) (count k : Nat) (s : State) :
    putField v count k (f s) = (putField v count k s).mapState f := by
  induction count generalizing k s with
  | zero => rfl
  | succ count ih => exact Progress.bind_commutes (h.putBit _ s) fun _ t => ih (k + 1) t

theorem WriteBlind.publish (s : State) : publish (f s) = (publish s).mapState f := by
  have hcount : flushCount (f s) = flushCount s := by simp only [flushCount, h.offset]
  unfold Machine.publish
  rw [hcount, h.buf]
  split
  · exact h.sinkWrite _ s
  · rfl

theorem WriteBlind.commandBody {i : Instr} (hi : neededMode i = .write) (s : State) :
    commandBody i (f s) = (commandBody i s).mapState f := by
  cases i with
  | writeBit b => exact Progress.bind_commutes (h.putBit b s) fun _ _ => rfl
  | writeBits n v => exact Progress.bind_commutes (h.putField v n.toNat 0 s) fun _ _ => rfl
  | readBit => cases hi
  | readBits n => cases hi
  | flush =>
    exact Progress.bind_commutes (h.publish s) fun _ t =>
      Progress.bind_commutes (h.sinkFlush t) fun _ u => congrArg (Progress.done 0) (h.emptied u)

end

/-! ### MODE_CFG -/

theorem modeCfgDriven_writeBlind (m : Mode) : WriteBlind (·.modeCfgDriven m) where
  capBytes _ := rfl
  buf _ := rfl
  offset _ := rfl
  answerAt _ _ := rfl
  sent _ _ := rfl
  emptied _ := rfl
  storeBit _ _ := rfl

theorem getBit_modeCfgDriven (m : Mode) (s : State) :
    getBit (s.modeCfgDriven m) = (getBit s).mapState (·.modeCfgDriven m) := by
  rcases getBit_cases s with ⟨ho, he⟩ | ⟨ho, ha, he⟩ | ⟨x, ho, ha, he⟩ <;> rw [he]
  · exact getBit_of_room (s := s.modeCfgDriven m) ho
  · exact getBit_of_consumed_ok (s := s.modeCfgDriven m) ho ha
  · exact getBit_of_consumed_err (s := s.modeCfgDriven m) ho ha

theorem getField_modeCfgDriven (m : Mode) (count k : Nat) (value : Data) (s : State) :
    getField count k value (s.modeCfgDriven m) = (getField count k value s).mapState (·.modeCfgDriven m) := by
  induction count generalizing k value s with
  | zero => rfl
  | succ count ih =>
    exact Progress.bind_commutes (getBit_modeCfgDriven m s) fun bit t => ih (k + 1) (assembleBit value bit k) t

theorem commandBody_modeCfgDriven (i : Instr) (m : Mode) (s : State) :
    commandBody i (s.modeCfgDriven m) = (commandBody i s).mapState (·.modeCfgDriven m) := by
  cases hi : neededMode i with
  | write => exact (modeCfgDriven_writeBlind m).commandBody hi s
  | read =>
    rcases neededMode_eq_read hi with rfl | ⟨n, rfl⟩
    · exact Progress.bind_commutes (getBit_modeCfgDriven m s) fun _ _ => rfl
    · exact getField_modeCfgDriven m n.toNat 0 0 s

theorem finish_modeCfgDriven (m : Mode) (r : Progress Data) :
    finish (r.mapState (·.modeCfgDriven m)) = (finish r).modeCfgDriven m := by
  cases r <;> rfl

theorem enter_modeCfgDriven (i : Instr) (m : Mode) (s : State) :
    enter (neededMode i) i.wf (commandBody i) (s.modeCfgDriven m)
      = (enter (neededMode i) i.wf (commandBody i) s).modeCfgDriven m := by
  simp only [enter, State.modeCfgDriven_fault, State.modeCfgDriven_mode, commandBody_modeCfgDriven,
    finish_modeCfgDriven]
  split_ifs <;> rfl

theorem enter_modeCfg (i : Instr) (s : State) :
    (enter (neededMode i) i.wf (commandBody i) s).modeCfg = s.modeCfg := by
  rcases enter_cases (neededMode i) i.wf (commandBody i) s with
    ⟨-, he⟩ | ⟨-, -, he⟩ | ⟨-, -, -, he⟩ | ⟨-, -, -, d, u, hb, he⟩ | ⟨-, -, -, u, hb, he⟩ <;> rw [he]
  · rfl
  · rfl
  · rfl
  · exact ((commandBody_frame i s).1 d u hb).modeCfg
  · exact ((commandBody_frame i s).2 u hb).modeCfg

/-- Settles O22: command entry and every body commute with driving MODE_CFG. -/
theorem modeCfgIsSampledOnlyAtReset : Obligations.ModeCfgIsSampledOnlyAtReset := by
  refine ⟨fun s m rest h => step_of_event h, fun s i m => ?_, fun s rest h => ⟨_, step_of_reset h, rfl⟩⟩
  refine ⟨_, exec_eq i s, enter_modeCfg i s, ?_⟩
  exact (exec_eq i (s.modeCfgDriven m)).trans (congrArg Host.Outcome.next (enter_modeCfgDriven i m s))

/-! ### VALID in write mode -/

/-- The state with another VALID. -/
def State.withValid (s : State) (v : Nat) : State := { s with valid := v }

theorem withValid_writeBlind (v : Nat) : WriteBlind (·.withValid v) where
  capBytes _ := rfl
  buf _ := rfl
  offset _ := rfl
  answerAt _ _ := rfl
  sent _ _ := rfl
  emptied _ := rfl
  storeBit _ _ := rfl

/-- The free values after an IO_ERROR (R101) do not depend on VALID before it. -/
theorem State.scrambled_withValid (s : State) (v : Nat) : (s.withValid v).scrambled = s.scrambled := rfl

/-- Settles O32: entry does not read VALID, and in write mode only the bodies of write commands and FLUSH run. -/
theorem writeModeNeverReadsValid : Obligations.WriteModeNeverReadsValid := by
  intro s i v hmode
  refine ⟨_, _, exec_eq i s, exec_eq i (s.withValid v), ?_⟩
  have hbody (hm : s.mode = neededMode i) := (withValid_writeBlind v).commandBody (hm.symm.trans hmode) s
  have honly (hm : s.mode = neededMode i) :=
    Progress.meets_iff.1 (writeBody_onlyWrites (hm.symm.trans hmode) s)
  rcases enter_cases (neededMode i) i.wf (commandBody i) s with
    ⟨hf, he⟩ | ⟨hf, hw, he⟩ | ⟨hf, hw, hm, he⟩ | ⟨hf, hw, hm, d, u, hb, he⟩ | ⟨hf, hw, hm, u, hb, he⟩ <;> rw [he]
  · rw [enter_of_fault (s := s.withValid v) hf]
    exact ⟨rfl, .inl ⟨rfl, rfl⟩⟩
  · rw [hw, enter_of_illegal (s := s.withValid v) hf]
    exact ⟨rfl, .inl ⟨rfl, rfl⟩⟩
  · rw [hw, enter_of_wrong_mode (s := s.withValid v) hf hm]
    exact ⟨rfl, .inl ⟨rfl, rfl⟩⟩
  · rw [hw, enter_of_ready (s := s.withValid v) hf hm, hbody hm, hb]
    exact ⟨rfl, .inl ⟨((honly hm).1 d u hb).valid, rfl⟩⟩
  · rw [hw, enter_of_ready (s := s.withValid v) hf hm, hbody hm, hb]
    exact ⟨rfl, .inr ⟨hf, rfl, rfl, rfl⟩⟩

end Sys2Proof.Machine

/-! Proofs of the memory family (20_memory.md): the ports move one way; a completed command body rewrites the stream of
bits by a rule that names neither BUF nor CAP_BYTES, for the write commands and FLUSH first and then for the read
commands; so two blocks of different capacities stay in step. -/

namespace Sys2Proof.Machine

/-! ### The ports -/

theorem State.sinkBytes_isPrefix {s t : State} (h : s.sinkLog <+: t.sinkLog) : s.sinkBytes <+: t.sinkBytes := by
  obtain ⟨sent, hsent⟩ := h
  exact ⟨_, (State.sinkBytes_append hsent.symm).symm⟩

/-- Settles O30: a command word only grows the histories (`CommandFrame`), and of the other events only the two that
attach an agent touch a port. -/
theorem portsOnlyMoveForward : Obligations.PortsOnlyMoveForward := by
  intro s t e rest h ht
  cases e with
  | command w =>
    have frame := (accepted_of_step h ht).frame
    obtain ⟨r, hr⟩ := frame.responses
    exact ⟨⟨[r], hr.symm⟩, fun _ => ⟨frame.sinkLog, State.sinkBytes_isPrefix frame.sinkLog⟩,
      fun _ => ⟨frame.source, frame.sourcePos, frame.sourceLog⟩⟩
  | attachSink =>
    cases (step_of_event h).symm.trans ht
    exact ⟨List.prefix_rfl, fun hne => absurd rfl hne, fun _ => ⟨rfl, Nat.le_refl _, List.prefix_rfl⟩⟩
  | attachSource bytes =>
    cases (step_of_event h).symm.trans ht
    exact ⟨List.prefix_rfl, fun _ => ⟨List.prefix_rfl, List.prefix_rfl⟩, fun hne => absurd rfl (hne bytes)⟩
  | driveModeCfg m | reset =>
    cases (step_of_event h).symm.trans ht
    exact ⟨List.prefix_rfl, fun _ => ⟨List.prefix_rfl, List.prefix_rfl⟩, fun _ => ⟨rfl, Nat.le_refl _, List.prefix_rfl⟩⟩

/-! ### A completed part of a command -/

theorem Progress.bind_eq_done {α β : Type} {r : Progress α} {k : α → State → Progress β} {b : β} {t : State} :
    r.bind k = .done b t ↔ ∃ a u, r = .done a u ∧ k a u = .done b t := by
  cases r <;> simp

/-! ### A field that fits -/

/-- R42, R44: a field that fits makes no transaction and fills the bit positions from OFFSET on. -/
theorem putField_of_room (v : Data) (count k : Nat) (s : State) (hw : s.buf.wf) (hr : s.offset + count ≤ s.capBits) :
    ∃ m : Memory, putField v count k s = .done () { s with buf := m, offset := s.offset + count } ∧
      ∀ p, m.bit p = if s.offset ≤ p ∧ p < s.offset + count then valueBit v (k + (p - s.offset)) else s.buf.bit p := by
  induction count generalizing k s with
  | zero => exact ⟨s.buf, rfl, fun p => by rw [if_neg (by omega)]⟩
  | succ count ih =>
    obtain ⟨m, hm, hbits⟩ := ih (k + 1) (s.storeBit (valueBit v k)) (Memory.setBit_wf hw _ _)
      (show s.offset + 1 + count ≤ s.capBits by omega)
    refine ⟨m, ?_, fun p => ?_⟩
    · rw [putField, putBit_of_room (by omega), Progress.bind_done, hm, State.storeBit_offset, Nat.add_right_comm,
        Nat.add_assoc]
      rfl
    · rw [hbits, State.storeBit_offset, State.storeBit_buf, Memory.bit_setBit hw]
      rcases Nat.lt_trichotomy p s.offset with hlt | heq | hgt
      · rw [if_neg (by omega), if_neg (by omega), if_neg (by omega)]
      · rw [if_neg (by omega), if_pos heq, if_pos (by omega), heq, Nat.sub_self, Nat.add_zero]
      · have hk : k + 1 + (p - (s.offset + 1)) = k + (p - s.offset) := by omega
        have hin : s.offset + 1 ≤ p ∧ p < s.offset + 1 + count ↔ s.offset ≤ p ∧ p < s.offset + (count + 1) := by omega
        simp only [hk, hin, if_neg (Nat.ne_of_gt hgt)]

/-- Settles O37: entry lets the command through, and its field is one that fits (`putField_of_room`). -/
theorem writeBitsFillsPositionsInOrder : Obligations.WriteBitsFillsPositionsInOrder := by
  intro s n v hinv hf hm hn hroom
  obtain ⟨m, hput, hbits⟩ := putField_of_room v n.toNat 0 s hinv.buf_wf hroom
  have hbody : commandBody (.writeBits n v) s = .done 0 { s with buf := m, offset := s.offset + n.toNat } := by
    simp only [commandBody, hput, Progress.bind_done]
  refine ⟨_, exec_of_done ((widthLegal_iff n).2 hn) hf hm hbody, ?_, fun k hk => ?_, fun p hp => ?_⟩
  · simp only [State.respond, hm, statusOk]
  · exact (hbits _).trans (by rw [if_pos (by omega), Nat.add_sub_cancel_left, Nat.zero_add, valueBit])
  · exact (hbits p).trans (if_neg (by omega))

/-! ### The bits a completed write command or FLUSH leaves written -/

theorem putBit_writes {b : Bool} {s t : State} (h : s.WriteReady) (ht : putBit b s = .done () t) :
    t.writtenBits = s.writtenBits ++ [b] := by
  rcases putBit_cases b s with ⟨-, he⟩ | ⟨hfull, -, he⟩ | ⟨x, -, -, he⟩ <;> rw [he] at ht <;> cases ht
  · exact State.writtenBits_storeBit h.1.buf_wf b
  · rw [State.writtenBits_storeBit h.drained.1.buf_wf, State.writtenBits_drained hfull]

theorem putField_writes {v : Data} {count k : Nat} {s t : State} (h : s.WriteReady)
    (ht : putField v count k s = .done () t) :
    t.writtenBits = s.writtenBits ++ (List.range' k count).map (valueBit v) := by
  induction count generalizing k s with
  | zero => cases ht; simp
  | succ count ih =>
    obtain ⟨_, u, hu, hrest⟩ := Progress.bind_eq_done.1 ht
    rw [ih (putBit_keeps_ready _ _ _ h hu) hrest, putBit_writes h hu, List.range'_succ]
    simp

theorem Memory.bits_append (m : Memory) {lo mid hi : Nat} (h₁ : lo ≤ mid) (h₂ : mid ≤ hi) :
    m.bits lo mid ++ m.bits mid hi = m.bits lo hi := by
  obtain ⟨a, rfl⟩ := Nat.exists_eq_add_of_le h₁
  obtain ⟨b, rfl⟩ := Nat.exists_eq_add_of_le h₂
  have hlen : lo + a + b - lo = a + b := by omega
  simp only [Memory.bits, ← List.map_append, Nat.add_sub_cancel_left, List.range'_append_1, hlen]

theorem Memory.bits_eq_replicate {m : Memory} {lo hi : Nat} (h : ∀ p, lo ≤ p → p < hi → m.bit p = false) :
    m.bits lo hi = List.replicate (hi - lo) false := by
  rw [List.eq_replicate_iff]
  refine ⟨Memory.length_bits m lo hi, fun b hb => ?_⟩
  obtain ⟨p, hp, rfl⟩ := List.mem_map.1 hb
  obtain ⟨hlo, hhi⟩ := List.mem_range'_1.1 hp
  exact h p hlo (by omega)

/-- In write mode every bit position from OFFSET on is 0, whether BUF has it or not (R25). -/
theorem State.WriteReady.bit_eq_false {s : State} (h : s.WriteReady) {p : Nat} (hp : s.offset ≤ p) :
    s.buf.bit p = false := by
  obtain ⟨hinv, hf, hm⟩ := h
  rcases Nat.lt_or_ge p s.capBits with hlt | hge
  · exact hinv.write_clean hf hm p hlt hp
  · exact Memory.bit_eq_false_of_within hinv.buf_within hge

/-- The sink's bytes with those FLUSH publishes are the written bits, padded: the last byte's top bits are clean. -/
theorem State.WriteReady.bytesBits_published {s : State} (h : s.WriteReady) :
    bytesBits (s.sinkBytes ++ s.buf.firstBytes (flushCount s)) = padToByte s.writtenBits := by
  have hcount : 8 * flushCount s - s.offset = (8 - s.writtenBits.length % 8) % 8 := by
    simp only [flushCount, State.writtenBits, List.length_append, length_bytesBits, Memory.length_bits]
    omega
  have hle : s.offset ≤ 8 * flushCount s := by simp only [flushCount]; omega
  rw [bytesBits_append, Memory.bytesBits_firstBytes, ← Memory.bits_append _ (Nat.zero_le _) hle,
    Memory.bits_eq_replicate fun p hp _ => h.bit_eq_false hp, hcount, ← List.append_assoc]
  rfl

/-- FLUSH that goes through sent the bytes that hold bits, then one `SinkFlush`, and left BUF empty (R89). -/
theorem flush_done {s u : State} {d : Data} (h : commandBody .flush s = .done d u) :
    u.buf = [] ∧ u.offset = 0 ∧ u.sinkBytes = s.sinkBytes ++ s.buf.firstBytes (flushCount s) ∧
      ∃ sent, u.sinkLog = s.sinkLog ++ sent ++ [.flush .ok] ∧ ∀ a, .flush a ∉ sent := by
  rcases flush_cases s with
    ⟨-, x, -, he⟩ | ⟨v, n, ⟨-, -, -, rfl⟩ | ⟨hz, -, rfl⟩, ⟨-, he⟩ | ⟨x, -, he⟩⟩ <;> rw [he] at h <;> cases h
  · refine ⟨rfl, rfl, ?_, [.write (s.buf.firstBytes (flushCount s)) .ok], rfl, by simp⟩
    simp [State.sinkBytes, SinkTransaction.kept]
  · refine ⟨rfl, rfl, ?_, [], by simp, by simp⟩
    simp [State.sinkBytes, SinkTransaction.kept, hz, Memory.firstBytes]

theorem State.writtenBits_of_empty {s : State} (h : s.offset = 0) : s.writtenBits = bytesBits s.sinkBytes := by
  simp [State.writtenBits, h]

/-- R37: FLUSH that goes through puts the written bits, padded to a byte, in the sink and leaves none in BUF. -/
theorem flush_publishes {s u : State} {d : Data} (h : s.WriteReady) (hb : commandBody .flush s = .done d u) :
    bytesBits u.sinkBytes = padToByte s.writtenBits ∧ u.writtenBits = bytesBits u.sinkBytes := by
  obtain ⟨-, hoff, hbytes, -⟩ := flush_done hb
  exact ⟨hbytes ▸ h.bytesBits_published, State.writtenBits_of_empty hoff⟩

/-- Settles O52: FLUSH ended unfaulted, so its body went through (`flush_publishes`, `flush_done`). -/
theorem flushPutsEveryWrittenBitInTheSink : Obligations.FlushPutsEveryWrittenBitInTheSink := by
  intro s t hinv hf hm hex ht
  obtain ⟨-, -, d, u, hb, rfl⟩ := done_of_exec hex hf ht
  obtain ⟨hsink, hwritten⟩ := flush_publishes ⟨hinv, hf, hm⟩ hb
  obtain ⟨-, -, -, hsent⟩ := flush_done hb
  exact ⟨hsink, hwritten, hsent⟩

/-! ### Two writers of one stream (R47) -/

/-- The bits written after a completed command, from those before it: neither BUF nor CAP_BYTES has a part in it. -/
def writtenAfter : Instr → List Bool → List Bool
  | .writeBit b, bits => bits ++ [b]
  | .writeBits n v, bits => bits ++ valueBits v n.toNat
  | .flush, bits => padToByte bits
  | .readBit, bits => bits
  | .readBits _, bits => bits

theorem writtenBits_of_done {i : Instr} {s u : State} {d : Data} (h : s.WriteReady) (hi : neededMode i = .write)
    (hb : commandBody i s = .done d u) : u.writtenBits = writtenAfter i s.writtenBits := by
  cases i with
  | writeBit b =>
    obtain ⟨_, t, ht, he⟩ := Progress.bind_eq_done.1 hb
    cases he
    exact putBit_writes h ht
  | writeBits n v =>
    obtain ⟨_, t, ht, he⟩ := Progress.bind_eq_done.1 hb
    cases he
    rw [putField_writes h ht, ← List.range_eq_range']
    rfl
  | flush =>
    obtain ⟨hsink, hwritten⟩ := flush_publishes h hb
    exact hwritten.trans hsink
  | readBit => cases hi
  | readBits n => cases hi

/-- A byte sequence is determined by its bits (R41). -/
theorem bytesBits_injective : Function.Injective bytesBits := by
  intro xs ys h
  have hlen : xs.length = ys.length := by
    have := congrArg List.length h
    simp only [length_bytesBits] at this
    omega
  refine List.ext_getElem hlen fun i hx hy => byte_ext fun j hj => ?_
  have hbit := congrArg (fun bits => bits.getD (8 * i + j) false) h
  have hdiv : (8 * i + j) / 8 = i := by omega
  have hmod : (8 * i + j) % 8 = j := by omega
  simpa only [getD_bytesBits, hdiv, hmod, List.getD_eq_getElem _ _ hx, List.getD_eq_getElem _ _ hy] using hbit

/-- Settles O55: both bodies went through, so each block's stream follows `writtenAfter`, and after a FLUSH the sink's
bytes have just that stream as their bits. -/
theorem writtenStreamDoesNotDependOnCapacity : Obligations.WrittenStreamDoesNotDependOnCapacity := by
  intro s t s' t' i hinv hinv' hf hf' hm hm' hsame hex hex' ht ht'
  obtain ⟨-, hi, d, u, hb, rfl⟩ := done_of_exec hex hf ht
  obtain ⟨-, -, d', u', hb', rfl⟩ := done_of_exec hex' hf' ht'
  have hi : neededMode i = .write := hi.symm.trans hm
  have hu : u.writtenBits = u'.writtenBits := by
    rw [writtenBits_of_done ⟨hinv, hf, hm⟩ hi hb, writtenBits_of_done ⟨hinv', hf', hm'⟩ hi hb', hsame]
  refine ⟨hu, ?_⟩
  rintro rfl
  apply bytesBits_injective
  calc bytesBits u.sinkBytes = u.writtenBits := (flush_publishes ⟨hinv, hf, hm⟩ hb).2.symm
    _ = u'.writtenBits := hu
    _ = bytesBits u'.sinkBytes := (flush_publishes ⟨hinv', hf', hm'⟩ hb').2

/-! ### Two readers of one stream (R48) -/

/-- A block that can execute a read command and stands in step with its source (D12). -/
abbrev State.InStepReader (s : State) : Prop := s.ReadReady ∧ s.SourceInStep

/-- R48: a completed `get_bit` takes the first unread bit, or 0 and EOS where none is left. -/
theorem getBit_reads {s t : State} {b : Bool} (h : s.InStepReader) (ht : getBit s = .done b t) :
    t.InStepReader ∧ b = s.unreadBits.getD 0 false ∧ t.unreadBits = s.unreadBits.drop 1 ∧
      t.eos = (s.eos || decide (s.unreadBits.length < 1)) := by
  obtain ⟨hr, hs⟩ := h
  have hready := getBit_keeps_ready b s t hr ht
  rcases getBit_cases s with ⟨hroom, he⟩ | ⟨hfull, -, he⟩ | ⟨x, -, -, he⟩ <;> rw [he] at ht <;> cases ht
  · obtain ⟨hbit, hunread, heos, hstep⟩ := getBit_stream hr hs (Nat.lt_of_le_of_ne hr.1.offset_le hroom)
    exact ⟨⟨hready, hstep⟩, hbit, hunread, heos⟩
  · obtain ⟨hbit, hunread, heos, hstep⟩ := getBit_stream hr.refreshed State.refreshed_in_step hr.1.capBits_pos
    rw [State.unreadBits_refreshed hfull hr.1.valid_le] at hbit hunread heos
    exact ⟨⟨hready, hstep⟩, hbit, hunread, heos⟩

/-- Two readers with the same bits still to return and the same EOS; their CAP_BYTES, OFFSET and VALID may differ. -/
structure ReadAlike (s s' : State) : Prop where
  left : s.InStepReader
  right : s'.InStepReader
  unread : s.unreadBits = s'.unreadBits
  eos : s.eos = s'.eos

theorem ReadAlike.getBit {s s' t t' : State} {b b' : Bool} (h : ReadAlike s s') (ht : getBit s = .done b t)
    (ht' : getBit s' = .done b' t') : b = b' ∧ ReadAlike t t' := by
  obtain ⟨hin, hbit, hunread, heos⟩ := getBit_reads h.left ht
  obtain ⟨hin', hbit', hunread', heos'⟩ := getBit_reads h.right ht'
  refine ⟨?_, hin, hin', ?_, ?_⟩
  · rw [hbit, hbit', h.unread]
  · rw [hunread, hunread', h.unread]
  · rw [heos, heos', h.unread, h.eos]

theorem ReadAlike.getField {count k : Nat} {acc d d' : Data} {s s' t t' : State} (h : ReadAlike s s')
    (ht : getField count k acc s = .done d t) (ht' : getField count k acc s' = .done d' t') :
    d = d' ∧ ReadAlike t t' := by
  induction count generalizing k acc s s' with
  | zero => cases ht; cases ht'; exact ⟨rfl, h⟩
  | succ count ih =>
    obtain ⟨b, u, hu, hrest⟩ := Progress.bind_eq_done.1 ht
    obtain ⟨b', u', hu', hrest'⟩ := Progress.bind_eq_done.1 ht'
    obtain ⟨rfl, hnext⟩ := h.getBit hu hu'
    exact ih hnext hrest hrest'

theorem ReadAlike.commandBody {i : Instr} {d d' : Data} {s s' t t' : State} (h : ReadAlike s s')
    (hi : neededMode i = .read) (ht : commandBody i s = .done d t) (ht' : commandBody i s' = .done d' t') :
    d = d' ∧ ReadAlike t t' := by
  cases i with
  | readBit =>
    obtain ⟨b, u, hu, he⟩ := Progress.bind_eq_done.1 ht
    obtain ⟨b', u', hu', he'⟩ := Progress.bind_eq_done.1 ht'
    cases he; cases he'
    obtain ⟨rfl, hnext⟩ := h.getBit hu hu'
    exact ⟨rfl, hnext⟩
  | readBits n => exact h.getField ht ht'
  | writeBit b => cases hi
  | writeBits n v => cases hi
  | flush => cases hi

/-- Settles O56: both bodies went through, so they yield the same data and the blocks read alike after them; the answer is
made of that data, EOS and MODE. -/
theorem readStreamDoesNotDependOnCapacity : Obligations.ReadStreamDoesNotDependOnCapacity := by
  intro s t s' t' i hinv hinv' hs hs' hf hf' hm hm' hunread heos hex hex' ht ht'
  obtain ⟨-, hi, d, u, hb, rfl⟩ := done_of_exec hex hf ht
  obtain ⟨-, -, d', u', hb', rfl⟩ := done_of_exec hex' hf' ht'
  have halike : ReadAlike s s' := ⟨⟨⟨hinv, hf, hm⟩, hs⟩, ⟨⟨hinv', hf', hm'⟩, hs'⟩, hunread, heos⟩
  obtain ⟨rfl, hu⟩ := halike.commandBody (hi.symm.trans hm) hb hb'
  obtain ⟨⟨-, -, hmode⟩, -⟩ := hu.left
  obtain ⟨⟨-, -, hmode'⟩, -⟩ := hu.right
  refine ⟨hu.unread, hu.eos, ?_⟩
  rw [State.respond_responses, State.respond_responses, List.getLast?_concat, List.getLast?_concat, hu.eos, hmode, hmode']

end Sys2Proof.Machine

/-! Proofs of the encoding family (30_encoding.md): a word is a command's encoding exactly where its fields are that
command's, and these are the fields the decoder asks for; a match and mask, too, asks something of each field. -/

namespace Sys2Proof.Machine

/-! ### Decoding and encoding -/

theorem eq_assemble_iff_fields {w : CommandWord} {op : BitVec 4} {n : BitVec 6} {data : Data} :
    w = assemble op n data ↔
      opField w = op ∧ res0Field w = 0 ∧ nField w = n ∧ res1Field w = 0 ∧ dataField w = data := by
  constructor
  · rintro rfl
    exact fields_assemble op n data
  · rintro ⟨rfl, h0, rfl, h1, rfl⟩
    exact (eq_assemble_iff w).2 ⟨h0, h1⟩

theorem eq_encode_iff_fields {w : CommandWord} {i : Instr} :
    w = encode i ↔ opField w = opcodeOf i ∧ res0Field w = 0 ∧ nField w = widthOperand i ∧ res1Field w = 0 ∧
      dataField w = dataOperand i := eq_assemble_iff_fields

theorem decode_encode {i : Instr} (hw : i.wf = true) : decode (encode i) = .command i := by
  obtain ⟨hop, h0, hn, h1, hd⟩ := eq_encode_iff_fields.1 (Eq.refl (encode i))
  cases i with
  | writeBit b => cases b <;> simp [decode, hop, h0, hn, h1, hd, opcodeOf, widthOperand, dataOperand]
  | writeBits n v | readBits n =>
    have hlegal : widthLegal n = true := hw
    simp [decode, hop, h0, hn, h1, hd, hlegal, opcodeOf, widthOperand, dataOperand]
  | readBit | flush => simp [decode, hop, h0, hn, h1, hd, opcodeOf, widthOperand, dataOperand]

/-- DATA[31:1] is 0 exactly where DATA is the operand of a WRITE_BIT (R61). -/
theorem high_data_eq_zero_iff {data : Data} :
    data.extractLsb' 1 31 = 0 ↔ data = dataOperand (.writeBit (data.getLsbD 0)) := by
  constructor
  · intro h
    apply BitVec.eq_of_getLsbD_eq
    rintro (_ | i) hi
    · simp [dataOperand]
    · have hbit := congrArg (·.getLsbD i) h
      have hlt : i < 31 := by omega
      simpa [dataOperand, hlt, Nat.add_comm 1 i] using hbit
  · intro h
    rw [h]
    cases data.getLsbD 0 <;> rfl

theorem eq_encode_of_decode {w : CommandWord} {i : Instr} (h : decode w = .command i) : w = encode i := by
  rw [eq_encode_iff_fields]
  simp only [decode] at h
  split_ifs at h with hres hop hfields hop hfields hop hfields hop hfields hop hfields <;> cases h
  all_goals obtain ⟨h0, h1⟩ : res0Field w = 0 ∧ res1Field w = 0 := by simpa using hres
  · exact ⟨hop, h0, hfields.1, h1, high_data_eq_zero_iff.1 hfields.2⟩
  · exact ⟨hop, h0, rfl, h1, rfl⟩
  · exact ⟨hop, h0, hfields.1, h1, hfields.2⟩
  · exact ⟨hop, h0, rfl, h1, hfields.2⟩
  · exact ⟨hop, h0, hfields.1, h1, hfields.2⟩

theorem decode_eq_command_iff {w : CommandWord} {i : Instr} : decode w = .command i ↔ w = encode i ∧ i.wf = true :=
  ⟨fun h => ⟨eq_encode_of_decode h, wf_of_decode h⟩, fun ⟨h, hw⟩ => h ▸ decode_encode hw⟩

/-- Settles O1: the word's five fields are the command's, and on those the decoder's own case answers the command. -/
theorem decodeReadsBackEveryEncodedCommand : Obligations.DecodeReadsBackEveryEncodedCommand := fun _ => decode_encode

/-- Settles O2: each case of the decoder fixes all five fields of the word (`eq_encode_of_decode`). -/
theorem decodedWordIsItsCommandsEncoding : Obligations.DecodedWordIsItsCommandsEncoding :=
  fun _ _ => decode_eq_command_iff.1

/-- Settles O6: each word is the encoding of its command. -/
theorem specExampleWordsDecode : Obligations.SpecExampleWordsDecode :=
  ⟨decode_encode (i := .writeBit true) rfl, decode_encode (i := .writeBits 8 0x61) rfl,
    decode_encode (i := .readBits 7) rfl, decode_encode (i := .flush) rfl, decode_encode (i := .readBit) rfl⟩

/-- Settles O4: a word that decodes is its command's encoding, whose fields are the operands. -/
theorem operandsAreFieldsOfTheWord : Obligations.OperandsAreFieldsOfTheWord := by
  refine fun w => ⟨fun b h => ?_, fun n v h => ?_, fun n h => ?_⟩ <;>
    obtain ⟨-, -, hn, -, hd⟩ := eq_encode_iff_fields.1 (eq_encode_of_decode h)
  · have hbit := congrArg (·.getLsbD 0) hd
    simpa [dataField, dataOperand] using hbit.symm
  · exact ⟨hn.symm, hd.symm⟩
  · exact hn.symm

/-! ### Match and mask (R65) -/

/-- Every mask of R65 keeps OP, RES0 and RES1 whole; what it keeps of N and DATA differs from row to row. -/
theorem and_eq_assemble_iff {w mask : CommandWord} {op : BitVec 4} {n : BitVec 6} {data : Data}
    (hop : opField mask = BitVec.allOnes 4) (h0 : res0Field mask = BitVec.allOnes 4)
    (h1 : res1Field mask = BitVec.allOnes 18) :
    w &&& mask = assemble op n data ↔
      opField w = op ∧ res0Field w = 0 ∧ nField w &&& nField mask = n ∧ res1Field w = 0 ∧
        dataField w &&& dataField mask = data := by
  have hop' : opField (w &&& mask) = opField w := by
    rw [← BitVec.and_allOnes (x := opField w), ← hop]; exact BitVec.extractLsb'_and
  have h0' : res0Field (w &&& mask) = res0Field w := by
    rw [← BitVec.and_allOnes (x := res0Field w), ← h0]; exact BitVec.extractLsb'_and
  have h1' : res1Field (w &&& mask) = res1Field w := by
    rw [← BitVec.and_allOnes (x := res1Field w), ← h1]; exact BitVec.extractLsb'_and
  have hn : nField (w &&& mask) = nField w &&& nField mask := BitVec.extractLsb'_and
  have hd : dataField (w &&& mask) = dataField w &&& dataField mask := BitVec.extractLsb'_and
  rw [eq_assemble_iff_fields, hop', h0', hn, h1', hd]

/-- What the mask of WRITE_BIT keeps of DATA is 0 exactly where DATA is the operand of a WRITE_BIT. -/
theorem masked_data_eq_zero_iff {data : Data} :
    data &&& 0xFFFFFFFE#32 = 0 ↔ ∃ b, data = dataOperand (.writeBit b) := by
  constructor
  · intro h
    refine ⟨data.getLsbD 0, high_data_eq_zero_iff.1 ?_⟩
    calc data.extractLsb' 1 31
      _ = data.extractLsb' 1 31 &&& (0xFFFFFFFE#32).extractLsb' 1 31 := BitVec.and_allOnes.symm
      _ = (data &&& 0xFFFFFFFE#32).extractLsb' 1 31 := BitVec.extractLsb'_and.symm
      _ = 0 := by rw [h]; rfl
  · rintro ⟨b, rfl⟩
    cases b <;> rfl

theorem exists_decode_eq_writeBit_iff (w : CommandWord) :
    (∃ b, decode w = .command (.writeBit b)) ↔ w &&& 0xFFFFFFFEFFFFFFFF#64 = 0x1#64 := by
  have hmatch : w &&& 0xFFFFFFFEFFFFFFFF#64 = 0x1#64 ↔ opField w = 1 ∧ res0Field w = 0 ∧
      nField w &&& BitVec.allOnes 6 = 0 ∧ res1Field w = 0 ∧ dataField w &&& 0xFFFFFFFE#32 = 0 :=
    and_eq_assemble_iff (op := 1) (n := 0) (data := 0) rfl rfl rfl
  simp only [hmatch, decode_eq_command_iff, eq_encode_iff_fields, masked_data_eq_zero_iff, BitVec.and_allOnes]
  constructor
  · rintro ⟨b, ⟨hop, h0, hn, h1, hd⟩, -⟩
    exact ⟨hop, h0, hn, h1, b, hd⟩
  · rintro ⟨hop, h0, hn, h1, b, hd⟩
    exact ⟨b, ⟨hop, h0, hn, h1, hd⟩, rfl⟩

theorem exists_decode_eq_writeBits_iff (w : CommandWord) :
    (∃ n v, decode w = .command (.writeBits n v)) ↔
      w &&& 0x00000000FFFFC0FF#64 = 0x2#64 ∧ (nField w).toNat ≤ 32 := by
  have hmatch : w &&& 0x00000000FFFFC0FF#64 = 0x2#64 ↔ opField w = 2 ∧ res0Field w = 0 ∧
      nField w &&& 0 = 0 ∧ res1Field w = 0 ∧ dataField w &&& 0 = 0 :=
    and_eq_assemble_iff (op := 2) (n := 0) (data := 0) rfl rfl rfl
  simp only [hmatch, decode_eq_command_iff, eq_encode_iff_fields]
  constructor
  · rintro ⟨n, v, ⟨hop, h0, rfl, h1, rfl⟩, hlegal⟩
    exact ⟨⟨hop, h0, BitVec.and_zero, h1, BitVec.and_zero⟩, (widthLegal_iff _).1 hlegal⟩
  · rintro ⟨⟨hop, h0, -, h1, -⟩, hle⟩
    exact ⟨_, _, ⟨hop, h0, rfl, h1, rfl⟩, (widthLegal_iff _).2 hle⟩

theorem exists_decode_eq_readBits_iff (w : CommandWord) :
    (∃ n, decode w = .command (.readBits n)) ↔
      w &&& 0xFFFFFFFFFFFFC0FF#64 = 0x4#64 ∧ (nField w).toNat ≤ 32 := by
  have hmatch : w &&& 0xFFFFFFFFFFFFC0FF#64 = 0x4#64 ↔ opField w = 4 ∧ res0Field w = 0 ∧
      nField w &&& 0 = 0 ∧ res1Field w = 0 ∧ dataField w &&& BitVec.allOnes 32 = 0 :=
    and_eq_assemble_iff (op := 4) (n := 0) (data := 0) rfl rfl rfl
  simp only [hmatch, decode_eq_command_iff, eq_encode_iff_fields, BitVec.and_allOnes]
  constructor
  · rintro ⟨n, ⟨hop, h0, rfl, h1, hd⟩, hlegal⟩
    exact ⟨⟨hop, h0, BitVec.and_zero, h1, hd⟩, (widthLegal_iff _).1 hlegal⟩
  · rintro ⟨⟨hop, h0, -, h1, hd⟩, hle⟩
    exact ⟨_, ⟨hop, h0, rfl, h1, hd⟩, (widthLegal_iff _).2 hle⟩

/-- The rows of READ_BIT and FLUSH: a command without operands has one word, and its mask keeps every bit. -/
theorem decode_eq_command_iff_match {w m : CommandWord} {i : Instr} (hw : i.wf = true) (hm : encode i = m) :
    decode w = .command i ↔ w &&& 0xFFFFFFFFFFFFFFFF#64 = m := by
  have hand : w &&& 0xFFFFFFFFFFFFFFFF#64 = w := BitVec.and_allOnes
  simp [decode_eq_command_iff, hand, hw, hm]

/-- Settles O3, row by row: match and mask ask of each field what the command's encoding has there. -/
theorem decodeAgreesWithMatchAndMask : Obligations.DecodeAgreesWithMatchAndMask := fun w =>
  ⟨exists_decode_eq_writeBit_iff w, exists_decode_eq_writeBits_iff w, decode_eq_command_iff_match rfl rfl,
    exists_decode_eq_readBits_iff w, decode_eq_command_iff_match rfl rfl⟩

/-! ### The illegal words (R69, R96) -/

theorem decode_of_reserved_field {w : CommandWord} (h : res0Field w ≠ 0 ∨ res1Field w ≠ 0) :
    decode w = .illegalCommand := if_pos h

theorem decode_of_reserved_opcode {w : CommandWord} (h : (opField w).toNat = 0 ∨ 6 ≤ (opField w).toNat) :
    decode w = .illegalCommand := by
  have hne : ∀ op : BitVec 4, 1 ≤ op.toNat → op.toNat ≤ 5 → opField w ≠ op := by
    rintro _ h1 h5 rfl
    omega
  simp [decode, hne]

/-- The five opcodes of R59, or a reserved one (R69). -/
theorem opcode_cases (op : BitVec 4) :
    op = 1 ∨ op = 2 ∨ op = 3 ∨ op = 4 ∨ op = 5 ∨ op.toNat = 0 ∨ 6 ≤ op.toNat := by
  bv_omega

theorem wordIllegal_iff_fields (w : CommandWord) : wordIllegal w ↔
    (opField w).toNat = 0 ∨ 6 ≤ (opField w).toNat ∨ res0Field w ≠ 0 ∨ res1Field w ≠ 0 ∨
    (((opField w).toNat = 1 ∨ (opField w).toNat = 3 ∨ (opField w).toNat = 5) ∧ nField w ≠ 0) ∨
    (((opField w).toNat = 2 ∨ (opField w).toNat = 4) ∧ 32 < (nField w).toNat) ∨
    ((opField w).toNat = 1 ∧ (dataField w).extractLsb' 1 31 ≠ 0) ∨
    (((opField w).toNat = 3 ∨ (opField w).toNat = 4 ∨ (opField w).toNat = 5) ∧ dataField w ≠ 0) := by
  have hhigh : (dataField w).extractLsb' 1 31 = w.extractLsb' 33 31 := by
    apply BitVec.eq_of_getLsbD_eq
    intro i hi
    have hlt : 1 + i < 32 := by omega
    simp [dataField, hlt, ← Nat.add_assoc]
  rw [hhigh]
  rfl

/-- Settles O5: a nonzero reserved field first, then opcode by opcode; in each of the five the decoder's condition fails
exactly where one of the statement's clauses for that opcode holds. -/
theorem illegalWordsAreExactlyTheReservedOnes : Obligations.IllegalWordsAreExactlyTheReservedOnes := by
  intro w
  rw [wordIllegal_iff_fields]
  by_cases hres : res0Field w ≠ 0 ∨ res1Field w ≠ 0
  · simp only [decode_of_reserved_field hres, true_iff]
    tauto
  obtain ⟨h0, h1⟩ : res0Field w = 0 ∧ res1Field w = 0 := by simpa using hres
  rcases opcode_cases (opField w) with hop | hop | hop | hop | hop | hop
  · simp [decode, h0, h1, hop, imp_iff_not_or]
  · simp [decode, h0, h1, hop, widthLegal_iff]
  · simp [decode, h0, h1, hop, imp_iff_not_or]
  · simp [decode, h0, h1, hop, widthLegal_iff, imp_iff_not_or]
  · simp [decode, h0, h1, hop, imp_iff_not_or]
  · simp only [decode_of_reserved_opcode hop, true_iff]
    tauto

/-- Command entry refuses a term no word encodes, whatever the mode (R60, R100). -/
theorem exec_of_not_wf {i : Instr} {s : State} (hw : i.wf = false) (hf : s.fault = false) :
    exec i s = .next (s.raise .illegalCommand) := by
  rw [exec_eq, hw, enter_of_illegal hf]

/-- Settles O13: with `n > 32` neither term is well-formed, and entry raises ILLEGAL_COMMAND. -/
theorem widthsAboveMaxNAreIllegal : Obligations.WidthsAboveMaxNAreIllegal := by
  intro s n v hf hn
  have hw : widthLegal n = false := Bool.eq_false_iff.2 (mt (widthLegal_iff n).1 hn.not_ge)
  exact ⟨exec_of_not_wf (i := .writeBits n v) hw hf, exec_of_not_wf (i := .readBits n) hw hf⟩

/-! ### The response word -/

/-- Settles O7, from the five facts about the fields of a response word. -/
theorem responseWordLayout : Obligations.ResponseWordLayout := fun c d e m =>
  ⟨responseData_responseWord c d e m, responseStatus_responseWord c d e m, responseEos_responseWord c d e m,
    responseMode_responseWord c d e m, high_bits_responseWord c d e m⟩

end Sys2Proof.Machine

/-! Proofs of the write family (40_write.md): each write command as entry around `put_bit` or a field, what it touches,
where OFFSET ends, and that a field and its run of single bits are the same but for the responses. -/

namespace Sys2Proof.Machine

/-! ### A write command that passes entry -/

theorem exec_of_ready {i : Instr} {s : State} (hw : i.wf = true) (hf : s.fault = false) (hm : s.mode = neededMode i) :
    exec i s = .next (finish (commandBody i s)) := by
  rw [exec_eq, hw, enter_of_ready hf hm]

section
variable {s t : State} (hf : s.fault = false) (hm : s.mode = .write)
include hf hm

theorem exec_writeBit_of_done {b : Bool} (h : putBit b s = .done () t) :
    exec (.writeBit b) s = .next (t.respond statusOk 0) :=
  exec_of_done rfl hf hm (by simp [commandBody, h])

theorem exec_writeBit_of_ioError {b : Bool} (h : putBit b s = .ioError t) :
    exec (.writeBit b) s = .next (t.scrambled.raise .ioError) :=
  exec_of_ioError rfl hf hm (by simp [commandBody, h])

theorem exec_writeBits_of_done {n : BitVec 6} {v : Data} (hn : n.toNat ≤ 32)
    (h : putField v n.toNat 0 s = .done () t) : exec (.writeBits n v) s = .next (t.respond statusOk 0) :=
  exec_of_done ((widthLegal_iff n).2 hn) hf hm (by simp [commandBody, h])

theorem exec_writeBits_of_ioError {n : BitVec 6} {v : Data} (hn : n.toNat ≤ 32)
    (h : putField v n.toNat 0 s = .ioError t) : exec (.writeBits n v) s = .next (t.scrambled.raise .ioError) :=
  exec_of_ioError ((widthLegal_iff n).2 hn) hf hm (by simp [commandBody, h])

end

/-! ### WRITE_BIT -/

theorem State.sinkBytes_of_sent {s t : State} {x : SinkTransaction} (h : t.sinkLog = s.sinkLog ++ [x]) :
    t.sinkBytes = s.sinkBytes ++ x.kept := by
  rw [State.sinkBytes_append h, List.flatMap_singleton]

/-- Settles O33: a buffer with room takes the bit at OFFSET and no other position changes (R40). -/
theorem writeBitStoresAtOffset : Obligations.WriteBitStoresAtOffset := by
  intro s b hinv hf hm hroom
  refine ⟨_, exec_writeBit_of_done hf hm (putBit_of_room (Nat.ne_of_lt hroom) b), ?_, fun p => ?_⟩
  · simp only [State.respond, State.storeBit, hm, statusOk]
  · exact Memory.bit_setBit hinv.buf_wf s.offset b p

/-- Settles O34: the drain sends the whole buffer, and the bit is stored in the empty one. -/
theorem writeBitDrainsAFullBuffer : Obligations.WriteBitDrainsAFullBuffer := by
  intro s b _ hf hm hfull hok
  refine ⟨_, exec_writeBit_of_done hf hm (putBit_of_full_ok hfull hok b), ?_,
    State.sinkBytes_of_sent (x := .write (s.buf.firstBytes s.capBytes) .ok) rfl, fun p => ?_⟩
  · simp only [State.respond, State.storeBit, State.emptied, State.sinkSent, State.drawn, hm, statusOk, Nat.zero_add]
  · exact (Memory.bit_setBit Memory.wf_nil 0 b p).trans (by rw [Memory.bit_nil])

/-- Settles O35: the drain is the command's one transaction, and what it fails with is all that follows. -/
theorem writeBitDrainErrorRaisesIoError : Obligations.WriteBitDrainErrorRaisesIoError := by
  intro s b kept hf hm hfull herr
  refine ⟨_, exec_writeBit_of_ioError hf hm (putBit_of_full_err hfull herr b), ?_,
    State.sinkBytes_of_sent (x := .write (s.buf.firstBytes s.capBytes) (.err kept)) rfl⟩
  rw [← hm]; rfl

/-! ### WRITE_BITS -/

/-- Settles O36, from what a field with ok answers does (`putField_ok`). -/
theorem writeBitsAppendsTheField : Obligations.WriteBitsAppendsTheField := by
  intro s n v hinv hf hm hn hok
  obtain ⟨t, drained, hput, hframe, hlen, hwhole, hbits⟩ := putField_ok v n.toNat 0 s ⟨hinv, hf, hm⟩ hok
  refine ⟨_, drained, exec_writeBits_of_done hf hm hn hput, ?_, hlen, hwhole, ?_⟩
  · rw [hframe, ← hm]; rfl
  · rw [valueBits, List.range_eq_range']
    exact hbits

/-- Settles O38, from what a field with a failing drain does (`putField_err`). -/
theorem writeBitsStopsAtTheFailingDrain : Obligations.WriteBitsStopsAtTheFailingDrain := by
  intro s n v j kept hinv hf hm hn hj hok herr
  obtain ⟨t, drained, last, hput, hframe, hlen, hwhole, hlast, hbits⟩ :=
    putField_err v n.toNat 0 s j kept ⟨hinv, hf, hm⟩ hj hok herr
  refine ⟨_, drained, last, exec_writeBits_of_ioError hf hm hn hput, ?_, hlen, hwhole, hlast, ?_⟩
  · rw [hframe, ← hm]; rfl
  · rw [valueBits, List.range_eq_range']
    exact hbits

/-- Settles O49: no bit is handled, so the body of either command leaves the state as it is, with value 0. -/
theorem zeroWidthFieldsOnlyAnswer : Obligations.ZeroWidthFieldsOnlyAnswer := by
  refine fun s v hf => ⟨fun hm => ?_, fun hm => ?_⟩ <;> rw [← hm]
  · exact exec_writeBits_of_done (n := 0) hf hm (by decide) rfl
  · exact exec_of_done (i := .readBits 0) rfl hf hm rfl

/-! ### OFFSET (R78) -/

/-- `put_bit` takes one bit off the count: OFFSET after `m + 1` bits is where `m` more bits leave it. -/
theorem putBit_offsetAfter {b : Bool} {s t : State} (h : s.WriteReady) (ht : putBit b s = .done () t) (m : Nat) :
    t.offsetAfter m = s.offsetAfter (m + 1) := by
  rcases putBit_cases b s with ⟨hroom, he⟩ | ⟨hfull, -, he⟩ | ⟨x, -, -, he⟩ <;> rw [he] at ht <;> cases ht
  · have hlt := Nat.lt_of_le_of_ne h.1.offset_le hroom
    exact (State.offsetAfter_of_room (s := s) (t := s.storeBit b) rfl rfl hlt m).symm
  · exact (State.offsetAfter_of_full (s := s) (t := s.drained.storeBit b) rfl rfl hfull m).symm

theorem putField_offset {v : Data} {count k : Nat} {s t : State} (h : s.WriteReady)
    (ht : putField v count k s = .done () t) : t.offset = s.offsetAfter count := by
  induction count generalizing k s with
  | zero => cases ht; exact (State.offsetAfter_zero _).symm
  | succ count ih =>
    obtain ⟨_, u, hu, hrest⟩ := Progress.bind_eq_done.1 ht
    rw [ih (putBit_keeps_ready _ _ _ h hu) hrest, putBit_offsetAfter h hu]

theorem State.offsetAfter_of_pos (s : State) {m : Nat} (hm : 1 ≤ m) :
    s.offsetAfter m = (s.offset + m - 1) % s.capBits + 1 := if_neg (by omega)

theorem State.offsetAfter_eq_capBits_iff {s : State} (hc : 0 < s.capBits) {m : Nat} (hm : 1 ≤ m) :
    s.offsetAfter m = s.capBits ↔ s.capBits ∣ s.offset + m := by
  have hmod := (Nat.mod_modEq (s.offset + m - 1) s.capBits).add_right 1
  have hle : (s.offset + m - 1) % s.capBits + 1 ≤ s.capBits := Nat.mod_lt _ hc
  rw [← Nat.sub_add_cancel (show 1 ≤ s.offset + m by omega), ← hmod.dvd_iff dvd_rfl, s.offsetAfter_of_pos hm]
  exact ⟨fun h => dvd_of_eq h.symm, fun h => le_antisymm hle (Nat.le_of_dvd (Nat.succ_pos _) h)⟩

/-- Settles O40: the command went through, so its bits moved OFFSET as `putField_offset` says; a WRITE_BIT is a bit of
which none follow (`putBit_offsetAfter`). -/
theorem offsetAfterAWrite : Obligations.OffsetAfterAWrite := by
  intro s t i m hinv hf hm hi hex ht
  obtain ⟨-, -, d, u, hb, rfl⟩ := done_of_exec hex hf ht
  have hoff : u.offset = s.offsetAfter m := by
    rcases hi with ⟨b, rfl, rfl⟩ | ⟨n, v, rfl, rfl, -⟩ <;>
      obtain ⟨_, w, hput, he⟩ := Progress.bind_eq_done.1 hb <;> cases he
    · exact u.offsetAfter_zero.symm.trans (putBit_offsetAfter ⟨hinv, hf, hm⟩ hput 0)
    · exact putField_offset ⟨hinv, hf, hm⟩ hput
  rw [State.respond_offset, hoff]
  refine ⟨fun h0 => by rw [h0, State.offsetAfter_zero], fun h1 => ?_⟩
  have hval := s.offsetAfter_of_pos h1
  exact ⟨hval, hval ▸ Nat.succ_ne_zero _, State.offsetAfter_eq_capBits_iff hinv.capBits_pos h1⟩

/-! ### What a write command touches (R79) -/

/-- `t` comes from `s` by writing alone, and the sink got drains of CAP_BYTES bytes and nothing else. -/
structure OnlyDrains (s t : State) : Prop where
  only : OnlyWrites s t
  sent : ∃ sent, t.sinkLog = s.sinkLog ++ sent ∧
    ∀ x ∈ sent, ∃ bytes a, x = .write bytes a ∧ bytes.length = s.capBytes

theorem OnlyDrains.refl (s : State) : OnlyDrains s s := ⟨.refl s, [], (List.append_nil _).symm, nofun⟩

theorem OnlyDrains.trans {s t u : State} (h : OnlyDrains s t) (g : OnlyDrains t u) : OnlyDrains s u := by
  obtain ⟨sent, hs, hd⟩ := h.sent
  obtain ⟨sent', hs', hd'⟩ := g.sent
  have hcap : t.capBytes = s.capBytes := by obtain ⟨_, _, _, _, _, rfl⟩ := h.only; rfl
  refine ⟨h.only.trans g.only, sent ++ sent', by rw [hs', hs, List.append_assoc], fun x hx => ?_⟩
  rcases List.mem_append.1 hx with hx | hx
  · exact hd x hx
  · exact hcap ▸ hd' x hx

theorem OnlyDrains.of_drain {s t : State} (h : OnlyWrites s t) (a : PortAnswer)
    (hsent : t.sinkLog = s.sinkLog ++ [.write (s.buf.firstBytes s.capBytes) a]) : OnlyDrains s t :=
  ⟨h, _, hsent, fun _ hx => ⟨_, a, List.mem_singleton.1 hx, Memory.firstBytes_length _ _⟩⟩

theorem putBit_onlyDrains (b : Bool) (s : State) : (putBit b s).Meets (OnlyDrains s) (OnlyDrains s) := by
  rcases putBit_cases b s with ⟨-, he⟩ | ⟨-, -, he⟩ | ⟨x, -, -, he⟩ <;> rw [he]
  · exact ⟨⟨_, _, _, _, _, rfl⟩, [], (List.append_nil _).symm, nofun⟩
  · exact .of_drain ⟨_, _, _, _, _, rfl⟩ .ok rfl
  · exact .of_drain ⟨_, _, _, _, _, rfl⟩ (.err x) rfl

theorem putField_onlyDrains (v : Data) (count k : Nat) (s : State) :
    (putField v count k s).Meets (OnlyDrains s) (OnlyDrains s) := by
  have hbit (b : Bool) (t : State) := Progress.meets_iff.1 (putBit_onlyDrains b t)
  have hfield := putField_keeps (P := OnlyDrains s) (Q := OnlyDrains s)
    (fun b t u h hu => h.trans ((hbit b t).1 () u hu))
    (fun b t u h hu => h.trans ((hbit b t).2 u hu)) v count k s (.refl s)
  exact Progress.meets_iff.2 ⟨fun _ => hfield.1, hfield.2⟩

theorem writeCommandBody_onlyDrains {i : Instr} (hi : (∃ b, i = .writeBit b) ∨ ∃ n v, i = .writeBits n v)
    (s : State) : (commandBody i s).Meets (OnlyDrains s) (OnlyDrains s) := by
  rcases hi with ⟨b, rfl⟩ | ⟨n, v, rfl⟩
  · exact (putBit_onlyDrains b s).bind fun _ _ h => h
  · exact (putField_onlyDrains v n.toNat 0 s).bind fun _ _ h => h

/-- Settles O41, by the five things command entry can do (`enter_cases`): the first three touch no buffer or sink, and
where the body runs, it only drains; VALID is open only where that fails. -/
theorem writeCommandsTouchOnlyBufferAndSink : Obligations.WriteCommandsTouchOnlyBufferAndSink := by
  intro s t i hi hex
  obtain ⟨hdone, herr⟩ := Progress.meets_iff.1 (writeCommandBody_onlyDrains hi s)
  rw [exec_eq] at hex
  rcases enter_cases (neededMode i) i.wf (commandBody i) s with
    ⟨-, he⟩ | ⟨-, -, he⟩ | ⟨-, -, -, he⟩ | ⟨-, -, -, d, u, hb, he⟩ | ⟨hf, -, -, u, hb, he⟩ <;>
    rw [he] at hex <;> cases hex
  · exact ⟨rfl, .inl rfl, [], (List.append_nil _).symm, nofun⟩
  · exact ⟨rfl, .inl rfl, [], (List.append_nil _).symm, nofun⟩
  · exact ⟨rfl, .inl rfl, [], (List.append_nil _).symm, nofun⟩
  · obtain ⟨⟨_, _, _, _, _, rfl⟩, hsent⟩ := hdone d u hb
    exact ⟨rfl, .inl rfl, hsent⟩
  · obtain ⟨⟨_, _, _, _, _, rfl⟩, hsent⟩ := herr u hb
    exact ⟨rfl, .inr ⟨hf, rfl, rfl⟩, hsent⟩

/-! ### A field and its run of single bits (R76) -/

/-- The state without its responses. -/
def State.unanswered (s : State) : State := { s with responses := [] }

/-- A faulted block answers a whole run and does nothing else (R98). -/
theorem execAll_of_fault {s : State} (h : s.fault = true) (is : List Instr) :
    ∃ u, execAll is s = .next u ∧ u.responses.length = s.responses.length + is.length ∧
      u.unanswered = s.unanswered := by
  induction is generalizing s with
  | nil => exact ⟨s, rfl, rfl, rfl⟩
  | cons i is ih =>
    obtain ⟨u, hu, hlen, heq⟩ := ih (s := s.respond s.faultCode 0) h
    refine ⟨u, ?_, ?_, heq⟩
    · rw [execAll, exec_eq, enter_of_fault h]; exact hu
    · rw [hlen, State.respond_responses, List.length_append, List.length_singleton, List.length_cons]; omega

/-- Writing does not read the responses, so an answer given before a bit may as well be given after it. -/
theorem respond_writeBlind (c : BitVec 4) (d : Data) : WriteBlind (·.respond c d) where
  capBytes _ := rfl
  buf _ := rfl
  offset _ := rfl
  answerAt _ _ := rfl
  sent _ _ := rfl
  emptied _ := rfl
  storeBit _ _ := rfl

theorem finish_respond_unanswered (r : Progress Data) (c : BitVec 4) (d : Data) :
    (finish (r.mapState (·.respond c d))).unanswered = (finish r).unanswered := by
  cases r <;> rfl

/-- R76, bit by bit: the first WRITE_BIT puts the field's first bit. If that goes through, its answer moves past the rest
of the field (`respond_writeBlind`); if it fails, the rest of the run is only answered. -/
theorem writeBitRun_eq_field (v : Data) (count k : Nat) (s : State) (hf : s.fault = false) (hm : s.mode = .write) :
    ∃ u, execAll ((List.range' k count).map fun j => .writeBit (valueBit v j)) s = .next u ∧
      u.responses.length = s.responses.length + count ∧
      u.unanswered = (finish ((putField v count k s).bind fun _ t => .done 0 t)).unanswered := by
  induction count generalizing k s with
  | zero => exact ⟨s, rfl, rfl, rfl⟩
  | succ count ih =>
    obtain ⟨hframe, hframe'⟩ := putBit_frame (valueBit v k) s
    simp only [List.range'_succ, List.map_cons, execAll, putField]
    cases hput : putBit (valueBit v k) s with
    | done _ t =>
      have hkept := hframe t hput
      obtain ⟨u, hu, hlen, heq⟩ := ih (k + 1) (t.respond statusOk 0) (hkept.fault.trans hf) (hkept.mode.trans hm)
      rw [exec_writeBit_of_done hf hm hput]
      refine ⟨u, hu, ?_, ?_⟩
      · rw [hlen, State.respond_responses, hkept.responses, List.length_append, List.length_singleton]; omega
      · have hblind : (putField v count (k + 1) (t.respond statusOk 0)).bind (fun _ w => .done (0 : Data) w) =
            ((putField v count (k + 1) t).bind fun _ w => .done 0 w).mapState (·.respond statusOk 0) :=
          Progress.bind_commutes ((respond_writeBlind statusOk 0).putField v count (k + 1) t) fun _ _ => rfl
        rw [heq, hblind, finish_respond_unanswered, Progress.bind_done]
    | ioError t =>
      have hkept := hframe' t hput
      obtain ⟨u, hu, hlen, heq⟩ := execAll_of_fault (s := t.scrambled.raise .ioError) rfl
        ((List.range' (k + 1) count).map fun j => .writeBit (valueBit v j))
      rw [exec_writeBit_of_ioError hf hm hput]
      refine ⟨u, hu, ?_, heq⟩
      rw [hlen, State.raise_responses, State.scrambled_responses, hkept.responses, List.length_append,
        List.length_singleton, List.length_map, List.length_range']
      omega

/-- Settles O39: the run's state is the field's but for the responses (`writeBitRun_eq_field`). -/
theorem writeBitsEqualsItsWriteBitRun : Obligations.WriteBitsEqualsItsWriteBitRun := by
  intro s n v hf hm hn
  obtain ⟨u, hu, hlen, heq⟩ := writeBitRun_eq_field v n.toNat 0 s hf hm
  obtain ⟨hdone, herr⟩ := commandBody_frame (.writeBits n v) s
  rw [← List.range_eq_range'] at hu
  obtain ⟨r, hr⟩ : ∃ r, (finish (commandBody (.writeBits n v) s)).responses = s.responses ++ [r] := by
    cases hb : commandBody (.writeBits n v) s with
    | done d t => exact ⟨_, congrArg (· ++ [_]) (hdone d t hb).responses⟩
    | ioError t => exact ⟨_, congrArg (· ++ [_]) (herr t hb).responses⟩
  exact ⟨_, u, r, exec_of_ready ((widthLegal_iff n).2 hn) hf hm, hu, hr, hlen, heq.symm⟩

end Sys2Proof.Machine

/-! Proofs of the read family (41_read.md): each read command as entry around `get_bit` or a field, what it touches, what
it gives back of the stream and past its end, that it leaves the source in step, and that a field and its run of single
bits are the same but for the responses. -/

namespace Sys2Proof.Machine

/-! ### A read command that passes entry -/

theorem bitData_eq_ite (b : Bool) : bitData b = if b then 1 else 0 := by
  cases b <;> rfl

section
variable {s t : State} (hf : s.fault = false) (hm : s.mode = .read)
include hf hm

theorem exec_readBit_of_done {b : Bool} (h : getBit s = .done b t) :
    exec .readBit s = .next (t.respond statusOk (bitData b)) :=
  exec_of_done rfl hf hm (by simp [commandBody, h])

theorem exec_readBit_of_ioError (h : getBit s = .ioError t) :
    exec .readBit s = .next (t.scrambled.raise .ioError) :=
  exec_of_ioError rfl hf hm (by simp [commandBody, h])

theorem exec_readBits_of_done {n : BitVec 6} {d : Data} (hn : n.toNat ≤ 32) (h : getField n.toNat 0 0 s = .done d t) :
    exec (.readBits n) s = .next (t.respond statusOk d) :=
  exec_of_done ((widthLegal_iff n).2 hn) hf hm h

end

/-! ### READ_BIT -/

/-- Settles O42: a buffer that is not consumed gives the bit at OFFSET with no transaction (`getBit_of_room`). -/
theorem readBitTakesTheBitAtOffset : Obligations.ReadBitTakesTheBitAtOffset := by
  intro s hf hm hroom
  rw [exec_readBit_of_done hf hm (getBit_of_room hroom), bitData_eq_ite]
  simp only [State.respond, State.bitTaken, eosAfter, hm, statusOk]

/-- Right after a refill, position 0 is past the logical end exactly where the source gave no byte (R83). -/
theorem eosAfter_length_zero (eos : Bool) (bytes : List Byte) :
    eosAfter eos bytes.length 0 = (eos || bytes.isEmpty) := by
  cases bytes <;> simp [eosAfter]

/-- Settles O43: the refill lays the next bytes out from BUF[0], and the bit at position 0 is then taken. -/
theorem readBitRefillsAConsumedBuffer : Obligations.ReadBitRefillsAConsumedBuffer := by
  intro s _ hf hm hfull hok
  have hvalid : s.nextBytes.length = min s.capBytes (s.source.length - s.sourcePos) := by
    rw [State.length_nextBytes, State.sourceRest, List.length_drop]
  refine ⟨_, s.nextBytes, exec_readBit_of_done hf hm (getBit_of_consumed_ok hfull hok), rfl, ?_, fun i => ?_⟩
  · rw [← hvalid, ← eosAfter_length_zero, ← bitData_eq_ite, ← hm]; rfl
  · exact Memory.read_ofBytes 0 i s.nextBytes (Nat.zero_le i)

/-- Settles O44: the refill is the command's one transaction, and nothing but the fault follows where it fails. -/
theorem readBitSourceErrorRaisesIoError : Obligations.ReadBitSourceErrorRaisesIoError := by
  intro s x hf hm hfull herr
  refine ⟨_, exec_readBit_of_ioError hf hm (getBit_of_consumed_err hfull herr), ?_⟩
  rw [← hm]; rfl

/-! ### What a read command touches (R88) -/

/-- `t` is `s` but for BUF, OFFSET, VALID, EOS, the source's position and the answers drawn, and the source was asked for
CAP_BYTES bytes each time. -/
def OnlyReads (s t : State) : Prop :=
  ∃ buf offset valid eos sourcePos asked answers drawCount,
    t = { s with
      buf := buf, offset := offset, valid := valid, eos := eos, sourcePos := sourcePos
      sourceLog := s.sourceLog ++ asked, answers := answers, drawCount := drawCount } ∧
    ∀ x ∈ asked, x.asked = s.capBytes

theorem OnlyReads.refl (s : State) : OnlyReads s s :=
  ⟨_, _, _, _, _, [], _, _, by rw [List.append_nil], nofun⟩

theorem OnlyReads.trans {s t u : State} : OnlyReads s t → OnlyReads t u → OnlyReads s u := by
  rintro ⟨_, _, _, _, _, asked, _, _, rfl, h⟩ ⟨_, _, _, _, _, asked', _, _, rfl, h'⟩
  refine ⟨_, _, _, _, _, asked ++ asked', _, _, by rw [← List.append_assoc], fun x hx => ?_⟩
  exact (List.mem_append.1 hx).elim (h x) (h' x)

theorem getBit_onlyReads (s : State) : (getBit s).Meets (OnlyReads s) (OnlyReads s) := by
  rcases getBit_cases s with ⟨-, he⟩ | ⟨-, -, he⟩ | ⟨x, -, -, he⟩ <;> rw [he]
  · exact ⟨_, _, _, _, _, [], _, _, by rw [List.append_nil]; rfl, nofun⟩
  · exact ⟨_, _, _, _, _, [⟨s.capBytes, some s.nextBytes⟩], _, _, rfl, by simp⟩
  · exact ⟨_, _, _, _, _, [⟨s.capBytes, none⟩], _, _, rfl, by simp⟩

theorem readBody_onlyReads {i : Instr} (hi : neededMode i = .read) (s : State) :
    (commandBody i s).Meets (OnlyReads s) (OnlyReads s) := by
  refine readBody_meets (fun t ht => ?_) hi (.refl s)
  obtain ⟨hdone, herr⟩ := Progress.meets_iff.1 (getBit_onlyReads t)
  exact Progress.meets_iff.2 ⟨fun b u hu => ht.trans (hdone b u hu), fun u hu => ht.trans (herr u hu)⟩

/-- Settles O48, by the five things command entry can do (`enter_cases`): the first three touch no buffer or source, and
where the body runs, it only reads. -/
theorem readCommandsTouchOnlyBufferAndSource : Obligations.ReadCommandsTouchOnlyBufferAndSource := by
  intro s t i hi hex
  have hread : neededMode i = .read := by rcases hi with rfl | ⟨n, rfl⟩ <;> rfl
  obtain ⟨hdone, herr⟩ := Progress.meets_iff.1 (readBody_onlyReads hread s)
  rw [exec_eq] at hex
  rcases enter_cases (neededMode i) i.wf (commandBody i) s with
    ⟨-, he⟩ | ⟨-, -, he⟩ | ⟨-, -, -, he⟩ | ⟨-, -, -, d, u, hb, he⟩ | ⟨-, -, -, u, hb, he⟩ <;>
    rw [he] at hex <;> cases hex
  · exact ⟨rfl, [], (List.append_nil _).symm, nofun⟩
  · exact ⟨rfl, [], (List.append_nil _).symm, nofun⟩
  · exact ⟨rfl, [], (List.append_nil _).symm, nofun⟩
  · obtain ⟨_, _, _, _, _, asked, _, _, rfl, hasked⟩ := hdone d u hb
    exact ⟨rfl, asked, rfl, hasked⟩
  · obtain ⟨_, _, _, _, _, asked, _, _, rfl, hasked⟩ := herr u hb
    exact ⟨rfl, asked, rfl, hasked⟩

/-! ### The source stays in step (D12) -/

/-- Only a reset clears FAULT (R103): a command that ends unfaulted began so. -/
theorem fault_eq_false_of_exec {i : Instr} {s t : State} (h : exec i s = .next t) (ht : t.fault = false) :
    s.fault = false := by
  by_contra hf
  have hf : s.fault = true := by simpa using hf
  rw [exec_eq, enter_of_fault hf] at h
  cases h
  cases hf.symm.trans ht

theorem readBody_keeps_inStep {i : Instr} {s u : State} {d : Data} (h : s.InStepReader) (hi : neededMode i = .read)
    (hb : commandBody i s = .done d u) : u.InStepReader := by
  have hbit (t : State) (ht : t.InStepReader) : (getBit t).Meets State.InStepReader fun _ => True :=
    Progress.meets_iff.2 ⟨fun _ _ hu => (getBit_reads ht hu).1, fun _ _ => trivial⟩
  exact (Progress.meets_iff.1 (readBody_meets hbit hi h)).1 d u hb

/-- Settles O26: the command's body went through; bit by bit a read keeps the source in step (`getBit_reads`), and of a
block in write mode nothing is asked. -/
theorem commandsKeepSourceInStep : Obligations.CommandsKeepSourceInStep := by
  intro s t i hinv hs hex ht
  have hf := fault_eq_false_of_exec hex ht
  obtain ⟨-, hm, d, u, hb, rfl⟩ := done_of_exec hex hf ht
  cases hi : neededMode i with
  | read => exact (readBody_keeps_inStep ⟨⟨hinv, hf, hm.trans hi⟩, hs⟩ hi hb).2
  | write =>
    have hmode : u.mode = .write := (((commandBody_frame i s).1 d u hb).mode.trans hm).trans hi
    intro hread
    cases hmode.symm.trans hread

/-! ### READ_BITS over the stream -/

/-- Settles O45, from what a field with ok answers does (`getField_ok`). -/
theorem readBitsReturnsTheNextBits : Obligations.ReadBitsReturnsTheNextBits := by
  intro s n hinv hs hf hm hn hok
  obtain ⟨t, value, hget, hframe, hlog, hval, hunread, hstep⟩ :=
    getField_ok n.toNat 0 0 s ⟨hinv, hf, hm⟩ hs hok (by omega)
  refine ⟨_, value, exec_readBits_of_done hf hm hn hget, ?_, hlog, fun k => ?_, hunread, hstep⟩
  · rw [hframe, ← hm]; rfl
  · simpa using hval k

theorem getD_valueBits (v : Data) {n k : Nat} (h : k < n) : (valueBits v n).getD k false = v.getLsbD k := by
  simp [valueBits, valueBit, List.getD_eq_getElem?_getD, h]

/-- Settles O57: the field's bits follow those written before it, FLUSH puts them all in the sink (`flush_publishes`), and
the reader's next bits are then the field's, with the padding after them. -/
theorem fieldWrittenAndFlushedReadsBack : Obligations.FieldWrittenAndFlushedReadsBack := by
  intro n v w0 w1 w2 r hn hinv hf hm hwrite hflush hf2 hrinv hrs hrf hrm hok hunread
  have hf1 := fault_eq_false_of_exec hflush hf2
  obtain ⟨-, -, d1, u1, hb1, rfl⟩ := done_of_exec hwrite hf hf1
  obtain ⟨-, -, d2, u2, hb2, rfl⟩ := done_of_exec hflush hf1 hf2
  have hready0 : w0.WriteReady := ⟨hinv, hf, hm⟩
  have hready1 : u1.WriteReady := (Progress.meets_iff.1 (writeReady_kept.commandBody rfl hready0)).1 d1 u1 hb1
  have hwritten : u1.writtenBits = w0.writtenBits ++ valueBits v n.toNat := writtenBits_of_done hready0 rfl hb1
  have hsink : bytesBits (u2.respond statusOk d2).sinkBytes = padToByte u1.writtenBits :=
    (flush_publishes ⟨hready1.1.respond _ _, hready1.2⟩ hb2).1
  rw [hsink, hwritten, padToByte, List.append_assoc, List.drop_left] at hunread
  have hlen : (valueBits v n.toNat).length = n.toNat := by simp [valueBits]
  obtain ⟨t, value, hex, hframe, -, hval, -, -⟩ := readBitsReturnsTheNextBits r n hrinv hrs hrf hrm hn hok
  have heos : t.eos = r.eos := by rw [hframe]; simp [hunread, hlen]
  have hresponses : t.responses = r.responses ++ [responseWord 0 value t.eos .read] := congrArg State.responses hframe
  refine ⟨t, value, hex, (congrArg State.fault hframe).trans hrf, heos, heos ▸ hresponses, fun k => ?_⟩
  rw [hval k, hunread]
  by_cases hk : k < n.toNat
  · rw [List.getD_append _ _ _ _ (hlen.symm ▸ hk), getD_valueBits v hk]
  · simp [hk]

/-! ### Past the end (R81) -/

theorem State.sourceRest_eq_nil {s : State} (h : s.unreadBits = []) : s.sourceRest = [] :=
  bytesBits_injective (List.append_eq_nil_iff.1 h).2

/-- READ_BIT reads a field of one bit. -/
theorem commandBody_readBit_eq_field (s : State) : commandBody .readBit s = getField 1 0 0 s := by
  have hdata (b : Bool) : bitData b = assembleBit 0 b 0 := by cases b <;> rfl
  simp only [commandBody, getField, hdata]

/-- Settles O47: both commands read a field of `m` bits, and a source with no byte left is in step with any buffer, so
`getField_ok` says what they give: no bit of the value is set. -/
theorem readPastTheEndReturnsZeros : Obligations.ReadPastTheEndReturnsZeros := by
  intro s i m hinv hf hm hempty hok hi
  obtain ⟨hw, hi, hbody, h1, h32⟩ : i.wf = true ∧ neededMode i = .read ∧ commandBody i s = getField m 0 0 s ∧
      1 ≤ m ∧ m ≤ 32 := by
    rcases hi with ⟨rfl, rfl⟩ | ⟨n, rfl, rfl, h1, h32⟩
    · exact ⟨rfl, rfl, commandBody_readBit_eq_field s, by decide, by decide⟩
    · exact ⟨(widthLegal_iff n).2 h32, rfl, rfl, h1, h32⟩
  have hs : s.SourceInStep := fun _ _ _ => State.sourceRest_eq_nil hempty
  obtain ⟨t, value, hget, hframe, -, hval, hunread, -⟩ :=
    getField_ok m 0 0 s ⟨hinv, hf, hm⟩ hs hok (by omega)
  have hzero : value = 0 := BitVec.eq_of_getLsbD_eq fun j _ => by simp [hval, hempty]
  have heos : t.eos = true := by rw [hframe]; simp [hempty]; omega
  have hkept := (commandBody_frame i s).1 value t (hbody.trans hget)
  refine ⟨_, exec_of_done hw hf (hm.trans hi.symm) (hbody.trans hget), hkept.fault.trans hf, heos, ?_, ?_⟩
  · exact hunread.trans (by rw [hempty, List.drop_nil])
  · rw [State.respond_responses, hkept.responses, hkept.mode, hzero, heos, hm]; rfl

/-! ### A field and its run of single bits (R86) -/

/-- The value with these bits put in from bit `k` on, bit `k` first (R85). -/
def assembleBits : (value : Data) → (k : Nat) → List Bool → Data
  | value, _, [] => value
  | value, k, bit :: bits => assembleBits (assembleBit value bit k) (k + 1) bits

theorem getLsbD_assembleBits (value : Data) (k : Nat) (bits : List Bool) (h : k + bits.length ≤ 32) (j : Nat) :
    (assembleBits value k bits).getLsbD j = (value.getLsbD j || (decide (k ≤ j) && bits.getD (j - k) false)) := by
  induction bits generalizing value k with
  | nil => simp [assembleBits]
  | cons bit bits ih =>
    rw [List.length_cons] at h
    rw [assembleBits, ih _ _ (by omega), getLsbD_assembleBit]
    rcases Nat.lt_trichotomy j k with hlt | rfl | hgt
    · simp [Nat.ne_of_lt hlt, Nat.not_le.2 hlt, show ¬ k + 1 ≤ j by omega]
    · simp [show j < 32 by omega]
    · obtain ⟨i, rfl⟩ := Nat.exists_eq_add_of_le hgt
      simp [show k ≤ k + 1 + i by omega, show k + 1 + i - k = i + 1 by omega, show k + 1 + i ≠ k by omega]

/-- Bit 0 of DATA, the result of a READ_BIT (R84). -/
def resultBit (r : ResponseWord) : Bool := (responseData r).getLsbD 0

theorem resultBit_responseWord_bitData (c : BitVec 4) (b e : Bool) (m : Mode) :
    resultBit (responseWord c (bitData b) e m) = b := by
  rw [resultBit, responseData_responseWord]
  cases b <;> rfl

/-- A command term is answered once, as a command word is (R28). -/
theorem exec_responses {i : Instr} {s t : State} (h : exec i s = .next t) : ∃ r, t.responses = s.responses ++ [r] := by
  obtain ⟨hdone, herr⟩ := commandBody_frame i s
  rw [exec_eq] at h
  rcases enter_cases (neededMode i) i.wf (commandBody i) s with
    ⟨-, he⟩ | ⟨-, -, he⟩ | ⟨-, -, -, he⟩ | ⟨-, -, -, d, u, hb, he⟩ | ⟨-, -, -, u, hb, he⟩ <;>
    rw [he] at h <;> cases h
  · exact ⟨_, rfl⟩
  · exact ⟨_, rfl⟩
  · exact ⟨_, rfl⟩
  · exact ⟨_, congrArg (· ++ [_]) (hdone d u hb).responses⟩
  · exact ⟨_, congrArg (· ++ [_]) (herr u hb).responses⟩

theorem execAll_responses {is : List Instr} {s u : State} (h : execAll is s = .next u) :
    ∃ rs, u.responses = s.responses ++ rs ∧ rs.length = is.length := by
  induction is generalizing s with
  | nil => cases h; exact ⟨[], (List.append_nil _).symm, rfl⟩
  | cons i is ih =>
    obtain ⟨r, hr⟩ := exec_responses (exec_eq i s)
    rw [execAll, exec_eq] at h
    obtain ⟨rs, hresp, hlen⟩ := ih h
    exact ⟨r :: rs, by rw [hresp, hr, List.append_assoc, List.singleton_append], congrArg (· + 1) hlen⟩

/-- Reading does not read the responses. -/
theorem getBit_unanswered (s : State) : getBit s.unanswered = (getBit s).mapState State.unanswered := by
  rcases getBit_cases s with ⟨ho, he⟩ | ⟨ho, ha, he⟩ | ⟨x, ho, ha, he⟩ <;> rw [he]
  · exact getBit_of_room (s := s.unanswered) ho
  · exact getBit_of_consumed_ok (s := s.unanswered) ho ha
  · exact getBit_of_consumed_err (s := s.unanswered) ho ha

theorem getField_unanswered (count k : Nat) (value : Data) (s : State) :
    getField count k value s.unanswered = (getField count k value s).mapState State.unanswered := by
  induction count generalizing k value s with
  | zero => rfl
  | succ count ih =>
    exact Progress.bind_commutes (getBit_unanswered s) fun bit t => ih (k + 1) (assembleBit value bit k) t

theorem finish_unanswered (r : Progress Data) :
    (finish (r.mapState State.unanswered)).unanswered = (finish r).unanswered := by
  cases r <;> rfl

/-- R86, bit by bit: the first READ_BIT gets the field's first bit. If that goes through, the rest of the run reads on in
the same state but for one more response, which no bit depends on; if it fails, the rest of the run is only answered. -/
theorem readBitRun_eq_field (count k : Nat) (value : Data) (s : State) (hf : s.fault = false) (hm : s.mode = .read) :
    ∃ u rs, execAll (List.replicate count .readBit) s = .next u ∧ u.responses = s.responses ++ rs ∧
      rs.length = count ∧ u.unanswered = (finish (getField count k value s.unanswered)).unanswered ∧
      ∀ d t, getField count k value s.unanswered = .done d t → d = assembleBits value k (rs.map resultBit) := by
  induction count generalizing k value s with
  | zero => exact ⟨s, [], rfl, (List.append_nil _).symm, rfl, rfl, fun d t h => by cases h; rfl⟩
  | succ count ih =>
    obtain ⟨hframe, hframe'⟩ := getBit_frame s
    simp only [List.replicate_succ, execAll, getField, getBit_unanswered]
    cases hget : getBit s with
    | done b t =>
      have hkept := hframe b t hget
      obtain ⟨u, rs, hu, hresp, hlen, heq, hval⟩ := ih (k + 1) (assembleBit value b k) (t.respond statusOk (bitData b))
        (hkept.fault.trans hf) (hkept.mode.trans hm)
      rw [exec_readBit_of_done hf hm hget]
      refine ⟨u, responseWord statusOk (bitData b) t.eos t.mode :: rs, hu, ?_, congrArg (· + 1) hlen, heq, ?_⟩
      · rw [hresp, State.respond_responses, hkept.responses, List.append_assoc, List.singleton_append]
      · rw [List.map_cons, resultBit_responseWord_bitData]
        exact hval
    | ioError t =>
      have hkept := hframe' t hget
      obtain ⟨u, hu, -, heq⟩ := execAll_of_fault (s := t.scrambled.raise .ioError) rfl (List.replicate count .readBit)
      obtain ⟨rs, hresp, hlen⟩ := execAll_responses hu
      rw [exec_readBit_of_ioError hf hm hget]
      refine ⟨u, responseWord 1 0 t.eos t.mode :: rs, hu, ?_, ?_, heq, nofun⟩
      · rw [hresp, State.raise_responses, State.scrambled_responses, hkept.responses, List.append_assoc]; rfl
      · rw [List.length_cons, hlen, List.length_replicate]

/-- Settles O46: the run's state is the field's but for the responses, and the field's value is put together from the
run's results (`readBitRun_eq_field`). -/
theorem readBitsEqualsItsReadBitRun : Obligations.ReadBitsEqualsItsReadBitRun := by
  intro s n hf hm hn
  obtain ⟨u, rs, hu, hresp, hlen, heq, hval⟩ := readBitRun_eq_field n.toNat 0 0 s hf hm
  rw [getField_unanswered, finish_unanswered] at heq
  have hexec : exec (.readBits n) s = .next (finish (getField n.toNat 0 0 s)) :=
    exec_of_ready (i := .readBits n) ((widthLegal_iff n).2 hn) hf hm
  obtain ⟨hdone, herr⟩ := commandBody_frame (.readBits n) s
  cases hget : getField n.toNat 0 0 s with
  | done d t =>
    rw [hget] at hexec heq
    refine ⟨_, u, _, rs, hexec, hu, congrArg (· ++ [_]) (hdone d t hget).responses, hresp, hlen, heq.symm,
      fun _ k => ?_⟩
    -- the field's bit `k` is the result of the `k`-th READ_BIT, and 0 where there is none
    have hbits : d.getLsbD k = (rs.map resultBit).getD k false := by
      rw [hval d t.unanswered (by rw [getField_unanswered, hget]; rfl),
        getLsbD_assembleBits _ _ _ (by rw [List.length_map]; omega)]
      simp
    have hzero : resultBit 0 = false := rfl
    rw [responseData_responseWord, hbits, ← hzero, List.getD_map]
    by_cases hk : k < n.toNat
    · rw [decide_eq_true hk, Bool.true_and]; rfl
    · rw [List.getD_eq_default _ _ (by omega), decide_eq_false hk, Bool.false_and]; rfl
  | ioError t =>
    rw [hget] at hexec heq
    refine ⟨_, u, _, rs, hexec, hu, congrArg (· ++ [_]) (herr t hget).responses, hresp, hlen, heq.symm,
      fun hfault => ?_⟩
    exact absurd (hfault.symm.trans (show u.fault = true from congrArg State.fault heq)) Bool.false_ne_true

end Sys2Proof.Machine

/-! Proofs of the flush family (42_flush.md): the body of FLUSH at each of its answers, what follows a FLUSH that went
through, what it touches, and that no other command sends a `SinkFlush`. -/

namespace Sys2Proof.Machine

/-! ### FLUSH, answer by answer (R89) -/

/-- The state after FLUSH's sink write, with the sink's answer to it. -/
abbrev State.published (s : State) (a : PortAnswer) : State :=
  s.drawn.sinkSent (.write (s.buf.firstBytes (flushCount s)) a)

theorem flushCount_pos_iff {s : State} : 0 < flushCount s ↔ s.offset ≠ 0 := by
  simp only [flushCount]; omega

theorem publish_of_empty {s : State} (h : s.offset = 0) : publish s = .done () s :=
  if_neg fun hpos => flushCount_pos_iff.1 hpos h

theorem publish_ok {s : State} (h : s.offset ≠ 0) (ha : s.answerAt 0 = .ok) :
    publish s = .done () (s.published .ok) := by
  rw [publish, if_pos (flushCount_pos_iff.2 h), sinkWrite_ok ha]

theorem publish_err {s : State} {x : Nat} (h : s.offset ≠ 0) (ha : s.answerAt 0 = .err x) :
    publish s = .ioError (s.published (.err x)) := by
  rw [publish, if_pos (flushCount_pos_iff.2 h), sinkWrite_err ha]

section
variable {s u : State} (hf : s.fault = false) (hm : s.mode = .write)
include hf hm

theorem exec_flush_ok (hp : publish s = .done () u) (ha : u.answerAt 0 = .ok) :
    exec .flush s = .next ((u.drawn.sinkSent (.flush .ok)).emptied.respond statusOk 0) :=
  exec_of_done rfl hf hm (by simp only [commandBody, hp, Progress.bind_done, sinkFlush_ok ha])

theorem exec_flush_err {x : Nat} (hp : publish s = .done () u) (ha : u.answerAt 0 = .err x) :
    exec .flush s = .next ((u.drawn.sinkSent (.flush (.err x))).scrambled.raise .ioError) :=
  exec_of_ioError rfl hf hm (by simp only [commandBody, hp, Progress.bind_done, sinkFlush_err ha, Progress.bind_ioError])

theorem exec_flush_publish_err (hp : publish s = .ioError u) :
    exec .flush s = .next (u.scrambled.raise .ioError) :=
  exec_of_ioError rfl hf hm (by simp only [commandBody, hp, Progress.bind_ioError])

end

theorem State.sinkBytes_of_flush {s t : State} {a : PortAnswer} (h : t.sinkLog = s.sinkLog ++ [.flush a]) :
    t.sinkBytes = s.sinkBytes := (State.sinkBytes_of_sent h).trans (List.append_nil _)

/-- Settles O50: by whether a byte holds a written bit, so that there is a sink write to make (`publish_ok`) or none. -/
theorem flushPublishesAndEmpties : Obligations.FlushPublishesAndEmpties := by
  intro s hf hm hok
  by_cases h0 : s.offset = 0
  · simp only [h0, if_true] at hok ⊢
    refine ⟨_, exec_flush_ok hf hm (publish_of_empty h0) (hok 0 Nat.one_pos), ?_, ?_, fun _ => rfl⟩
    · rw [← hm, List.drop_one, List.append_nil]; rfl
    · exact (State.sinkBytes_of_flush (s := s) rfl).trans (List.append_nil _).symm
  · simp only [h0, if_false] at hok ⊢
    have h1 : (s.published .ok).answerAt 0 = .ok := (s.answerAt_drawn 0).trans (hok 1 Nat.one_lt_two)
    refine ⟨_, exec_flush_ok hf hm (publish_ok h0 (hok 0 Nat.two_pos)) h1, ?_, ?_, fun _ => rfl⟩
    · rw [← hm, ← List.tail_drop, List.drop_one]
      simp [State.respond, State.emptied, State.sinkSent, State.drawn, statusOk, flushCount]
    · exact (State.sinkBytes_of_flush (s := s.published .ok) rfl).trans (s.drawn.sinkBytes_sinkSent _)

/-- Settles O51: the sink write fails, or the `SinkFlush` after it, or the `SinkFlush` where nothing was written. -/
theorem flushStopsAtTheFirstError : Obligations.FlushStopsAtTheFirstError := by
  intro s x hf hm
  rw [← hm]
  refine ⟨fun h0 herr => ?_, fun h0 hok herr => ?_, fun h0 herr => ?_⟩
  · exact ⟨_, exec_flush_publish_err hf hm (publish_err h0 herr), rfl⟩
  · have h1 : (s.published .ok).answerAt 0 = .err x := (s.answerAt_drawn 0).trans herr
    refine ⟨_, exec_flush_err hf hm (publish_ok h0 hok) h1, ?_⟩
    rw [← List.tail_drop, List.drop_one]
    simp [State.raise, State.faulted, State.respond, State.scrambled, State.sinkSent, State.drawn, FaultKind.code,
      flushCount]
  · exact ⟨_, exec_flush_err hf hm (publish_of_empty h0) herr, rfl⟩

/-! ### After a FLUSH that went through (R93) -/

theorem Memory.read_zero_setBit_nil (b : Bool) : (Memory.setBit [] 0 b).read 0 = if b then 1#8 else 0#8 := by
  cases b <;> rfl

/-- Settles O53: the FLUSH left BUF empty and OFFSET 0 (`flush_done`), so a second one has nothing to publish and a
WRITE_BIT has room at bit 0. -/
theorem flushRealignsToAByte : Obligations.FlushRealignsToAByte := by
  intro s t b hinv hf hm hex ht
  obtain ⟨-, -, d, u, hb, rfl⟩ := done_of_exec hex hf ht
  obtain ⟨hbuf, hoff, -, -⟩ := flush_done hb
  have hframe := (commandBody_frame .flush s).1 d u hb
  have hmode : (u.respond statusOk d).mode = .write := hframe.mode.trans hm
  have hroom : (u.respond statusOk d).offset ≠ (u.respond statusOk d).capBits := by
    have hpos := hinv.cap_pos
    simp only [State.respond_offset, State.capBits, State.respond_capBytes, hframe.capBytes, hoff]
    omega
  refine ⟨fun hok => ?_, _, exec_writeBit_of_done ht hmode (putBit_of_room hroom b), ht, ?_, rfl, ?_⟩
  · exact ⟨_, exec_flush_ok ht hmode (publish_of_empty hoff) hok, ht, rfl, State.sinkBytes_of_flush rfl⟩
  · exact congrArg (· + 1) hoff
  · simp only [State.respond_buf, State.storeBit_buf, State.respond_offset, hbuf, hoff, Memory.read_zero_setBit_nil]

/-! ### What FLUSH touches (R92) -/

/-- Settles O54, by the five things command entry can do (`enter_cases`): where the body runs it only writes
(`OnlyWrites`), and VALID is open only where that fails. -/
theorem flushTouchesOnlyBufferAndSink : Obligations.FlushTouchesOnlyBufferAndSink := by
  intro s t hex
  obtain ⟨hdone, herr⟩ := Progress.meets_iff.1 (writeBody_onlyWrites (i := .flush) rfl s)
  rw [exec_eq] at hex
  rcases enter_cases (neededMode .flush) (Instr.wf .flush) (commandBody .flush) s with
    ⟨-, he⟩ | ⟨-, -, he⟩ | ⟨-, -, -, he⟩ | ⟨-, -, -, d, u, hb, he⟩ | ⟨hf, -, -, u, hb, he⟩ <;>
    rw [he] at hex <;> cases hex
  · exact ⟨rfl, .inl rfl⟩
  · exact ⟨rfl, .inl rfl⟩
  · exact ⟨rfl, .inl rfl⟩
  · obtain ⟨_, _, _, _, _, rfl⟩ := hdone d u hb
    exact ⟨rfl, .inl rfl⟩
  · obtain ⟨_, _, _, _, _, rfl⟩ := herr u hb
    exact ⟨rfl, .inr ⟨hf, rfl, rfl⟩⟩

/-! ### Who sends a `SinkFlush` (R91) -/

/-- No `SinkFlush` stands among the transactions `t` has beyond those of `s`. -/
def NoSinkFlush (s t : State) : Prop := ∀ a, .flush a ∉ t.sinkLog.drop s.sinkLog.length

theorem NoSinkFlush.of_eq {s t : State} (h : t.sinkLog = s.sinkLog) : NoSinkFlush s t := by
  simp [NoSinkFlush, h]

theorem OnlyDrains.noSinkFlush {s t : State} (h : OnlyDrains s t) : NoSinkFlush s t := by
  intro a ha
  obtain ⟨sent, hs, hwrites⟩ := h.sent
  rw [hs, List.drop_left] at ha
  obtain ⟨_, _, he, -⟩ := hwrites _ ha
  cases he

theorem OnlyReads.noSinkFlush {s t : State} : OnlyReads s t → NoSinkFlush s t := by
  rintro ⟨_, _, _, _, _, _, _, _, rfl, -⟩
  exact .of_eq rfl

theorem Progress.Meets.imp {α : Type} {P Q P' Q' : State → Prop} {r : Progress α} (h : r.Meets P Q)
    (hP : ∀ s, P s → P' s) (hQ : ∀ s, Q s → Q' s) : r.Meets P' Q' := by
  cases r with
  | done a s => exact hP s h
  | ioError s => exact hQ s h

theorem commandBody_noSinkFlush {i : Instr} (hi : i ≠ .flush) (s : State) :
    (commandBody i s).Meets (NoSinkFlush s) (NoSinkFlush s) := by
  have hwrite (h : (∃ b, i = .writeBit b) ∨ ∃ n v, i = .writeBits n v) :=
    (writeCommandBody_onlyDrains h s).imp (fun _ => OnlyDrains.noSinkFlush) fun _ => OnlyDrains.noSinkFlush
  have hread (h : neededMode i = .read) :=
    (readBody_onlyReads h s).imp (fun _ => OnlyReads.noSinkFlush) fun _ => OnlyReads.noSinkFlush
  cases i with
  | writeBit b => exact hwrite (.inl ⟨b, rfl⟩)
  | writeBits n v => exact hwrite (.inr ⟨n, v, rfl⟩)
  | readBit => exact hread rfl
  | readBits n => exact hread rfl
  | flush => exact absurd rfl hi

theorem Accepted.noSinkFlush {w : CommandWord} {s t : State} (h : Accepted w s t)
    (hw : decode w ≠ .command .flush) : NoSinkFlush s t := by
  cases h with
  | faulted | illegal | wrongMode => exact .of_eq rfl
  | completed _ i hi _ d u hb =>
    exact (Progress.meets_iff.1 (commandBody_noSinkFlush (fun he => hw (he ▸ hi)) s)).1 d u hb
  | failed _ i hi _ u hb =>
    exact (Progress.meets_iff.1 (commandBody_noSinkFlush (fun he => hw (he ▸ hi)) s)).2 u hb

/-- Settles O31: a command word that decodes to anything but FLUSH sends none, and no other event sends anything. -/
theorem onlyFlushSendsSinkFlush : Obligations.OnlyFlushSendsSinkFlush := by
  intro s t e rest a h ht ha
  cases e with
  | command w =>
    by_contra hw
    exact (accepted_of_step h ht).noSinkFlush (fun hd => hw ⟨w, rfl, hd⟩) a ha
  | attachSink =>
    cases (step_of_event h).symm.trans ht
    simp at ha
  | driveModeCfg m | attachSource bytes | reset =>
    cases (step_of_event h).symm.trans ht
    exact absurd ha (NoSinkFlush.of_eq rfl a)

end Sys2Proof.Machine

/-! Proofs of the exceptions family (60_exceptions.md): how a command word is accepted, what a recorded fault leaves to
the host's events, and that a command's body makes its transactions one by one and stops at the first that answers
`err`. -/

namespace Sys2Proof.Machine

/-! ### Accepting a command word (R98) -/

theorem accept_of_fault {run : Instr → State → Host.Outcome State Fault Refusal} {w : CommandWord} {s : State}
    (h : s.fault = true) : accept run w s = .next (s.respond s.faultCode 0) := if_pos h

theorem accept_of_illegal {run : Instr → State → Host.Outcome State Fault Refusal} {w : CommandWord} {s : State}
    (hf : s.fault = false) (hw : decode w = .illegalCommand) : accept run w s = .next (s.raise .illegalCommand) := by
  simp [accept, hf, hw]

/-- Command entry repeats the check of FAULT, so a word that decodes is answered as its command is, faulted or not. -/
theorem accept_of_command {w : CommandWord} {i : Instr} {s : State} (hw : decode w = .command i) :
    accept exec w s = exec i s := by
  cases hf : s.fault with
  | true => rw [accept_of_fault hf, exec_eq, enter_of_fault hf]
  | false => simp [accept, hf, hw]

/-- Settles O8: the event is a command word, and accepting it runs the command (`accept_of_command`). -/
theorem stepRunsTheDecodedCommand : Obligations.StepRunsTheDecodedCommand :=
  fun _ _ _ _ hin hw => (step_of_event hin).trans (accept_of_command hw)

/-- Settles O12: the reserved words are those that do not decode (`illegalWordsAreExactlyTheReservedOnes`). -/
theorem illegalWordRaisesIllegalCommand : Obligations.IllegalWordRaisesIllegalCommand :=
  fun _ w _ hin hf hw =>
    (step_of_event hin).trans (accept_of_illegal hf ((illegalWordsAreExactlyTheReservedOnes w).2 hw))

/-- Settles O14: a well-formed command of the other mode gets as far as the third check of entry. -/
theorem wrongModeRaisesModeViolation : Obligations.WrongModeRaisesModeViolation := by
  intro s i hw hf hm
  rw [exec_eq, hw, enter_of_wrong_mode hf hm]
  rfl

/-! ### Every event has a next state (R97, R102) -/

theorem exists_next_of_event (e : HostEvent) (s : State) : ∃ t, handleEvent exec e s = .next t := by
  cases e with
  | driveModeCfg m => exact ⟨_, rfl⟩
  | attachSink => exact ⟨_, rfl⟩
  | attachSource bytes => exact ⟨_, rfl⟩
  | reset => exact ⟨_, rfl⟩
  | command w =>
    obtain ⟨t, ht, -⟩ := accept_cases w s
    exact ⟨t, ht⟩

/-- Settles O27: a block with no event waits (R110), and every event has a next state. -/
theorem everyStepHasANextState : Obligations.EveryStepHasANextState := by
  intro s
  cases hin : s.inbox with
  | nil => exact ⟨s, by simp [step, takeEvent, hin]⟩
  | cons e rest =>
    rw [step_of_event hin]
    exact exists_next_of_event e _

/-! ### A faulted block (R101, R103) -/

theorem step_of_command_of_fault {s : State} {w : CommandWord} {rest : List HostEvent}
    (hin : s.inbox = .command w :: rest) (hf : s.fault = true) :
    step s = .next (State.respond { s with inbox := rest } s.faultCode 0) :=
  (step_of_event hin).trans (accept_of_fault hf)

/-- Settles O16: the answer of a faulted block and a reset are both made without BUF, OFFSET and VALID. -/
theorem faultedBufferIsNeverObserved : Obligations.FaultedBufferIsNeverObserved := by
  intro s buf offset valid rest hf
  refine ⟨fun w hin => ⟨_, step_of_command_of_fault hin hf, ?_⟩, fun hin => ⟨_, step_of_reset hin, ?_⟩⟩
  · exact step_of_command_of_fault (s := { s with buf := buf, offset := offset, valid := valid }) hin hf
  · exact step_of_reset (s := { s with buf := buf, offset := offset, valid := valid }) hin

/-- Settles O17, event by event: a command word is only answered, and no other event but a reset touches the block. -/
theorem onlyResetEndsAFault : Obligations.OnlyResetEndsAFault := by
  intro s e rest hin hf
  cases e with
  | reset => exact ⟨_, step_of_reset hin, fun _ => ⟨rfl, rfl⟩, fun hne => absurd rfl hne⟩
  | command w =>
    exact ⟨_, step_of_command_of_fault hin hf, nofun, fun _ => ⟨hf, rfl, rfl, rfl, rfl, rfl, rfl, rfl⟩⟩
  | driveModeCfg m | attachSink | attachSource bytes =>
    exact ⟨_, step_of_event hin, nofun, fun _ => ⟨hf, rfl, rfl, rfl, rfl, rfl, rfl, rfl⟩⟩

/-! ### Transactions up to the first `err` (R12, R100) -/

/-- `t` comes after `s` and `made` transactions: it has drawn their answers, and gets those that follow. -/
structure Drew (made : Nat) (s t : State) : Prop where
  drawCount : t.drawCount = s.drawCount + made
  answerAt : ∀ k, t.answerAt k = s.answerAt (made + k)

theorem Drew.of_dropped {made : Nat} {s t : State} (ha : t.answers = s.answers.drop made)
    (hc : t.drawCount = s.drawCount + made) : Drew made s t := ⟨hc, State.answerAt_of_dropped ha hc⟩

theorem Drew.trans {m n : Nat} {s t u : State} (h : Drew m s t) (g : Drew n t u) : Drew (m + n) s u :=
  ⟨by rw [g.drawCount, h.drawCount, Nat.add_assoc], fun k => by rw [g.answerAt, h.answerAt, Nat.add_assoc]⟩

theorem Drew.answersOk_add {m n : Nat} {s t : State} (h : Drew m s t) (hs : s.answersOk m) (ht : t.answersOk n) :
    s.answersOk (m + n) := by
  intro k hk
  by_cases hm : k < m
  · exact hs k hm
  · rw [← Nat.add_sub_cancel' (Nat.le_of_not_lt hm), ← h.answerAt]
    exact ht _ (by omega)

/-- Between `s` and `t` every transaction answered `ok`. -/
def DrewOk (s t : State) : Prop := ∃ made, Drew made s t ∧ s.answersOk made

/-- Between `s` and `t` the last transaction, and only it, answered `err`. -/
def DrewErr (s t : State) : Prop := ∃ made x, Drew (made + 1) s t ∧ s.answersOk made ∧ s.answerAt made = .err x

theorem DrewOk.trans {s t u : State} : DrewOk s t → DrewOk t u → DrewOk s u := by
  rintro ⟨m, h, hs⟩ ⟨n, g, ht⟩
  exact ⟨m + n, h.trans g, h.answersOk_add hs ht⟩

theorem DrewOk.trans_err {s t u : State} : DrewOk s t → DrewErr t u → DrewErr s u := by
  rintro ⟨m, h, hs⟩ ⟨n, x, g, ht, hx⟩
  exact ⟨m + n, x, h.trans g, h.answersOk_add hs ht, (h.answerAt n).symm.trans hx⟩

theorem drewOk_of_no_transaction {s t : State} (ha : t.answers = s.answers) (hc : t.drawCount = s.drawCount) :
    DrewOk s t := ⟨0, .of_dropped ha hc, fun _ hk => absurd hk (Nat.not_lt_zero _)⟩

theorem drewOk_of_transaction {s t : State} (h : s.answerAt 0 = .ok) (ha : t.answers = s.answers.tail)
    (hc : t.drawCount = s.drawCount + 1) : DrewOk s t :=
  ⟨1, .of_dropped (ha.trans List.drop_one.symm) hc, fun _ hk => Nat.lt_one_iff.1 hk ▸ h⟩

theorem drewErr_of_transaction {s t : State} {x : Nat} (h : s.answerAt 0 = .err x) (ha : t.answers = s.answers.tail)
    (hc : t.drawCount = s.drawCount + 1) : DrewErr s t :=
  ⟨0, x, .of_dropped (ha.trans List.drop_one.symm) hc, fun _ hk => absurd hk (Nat.not_lt_zero _), h⟩

/-- This part of a command, started in `s`, goes through where all its transactions answer `ok`, and ends at the first
that answers `err`. -/
abbrev Progress.StopsAtErr {α : Type} (s : State) (r : Progress α) : Prop := r.Meets (DrewOk s) (DrewErr s)

theorem Progress.StopsAtErr.bind {α β : Type} {s : State} {r : Progress α} {k : α → State → Progress β}
    (h : r.StopsAtErr s) (hk : ∀ a t, (k a t).StopsAtErr t) : (r.bind k).StopsAtErr s :=
  Progress.Meets.bind h fun a t ht => (hk a t).imp (fun _ => ht.trans) fun _ => ht.trans_err

theorem Progress.StopsAtErr.done {α : Type} (a : α) (s : State) : (Progress.done a s).StopsAtErr s :=
  drewOk_of_no_transaction rfl rfl

theorem sinkWrite_stopsAtErr (bytes : List Byte) (s : State) : (sinkWrite bytes s).StopsAtErr s := by
  rcases sinkWrite_cases bytes s with ⟨ha, he⟩ | ⟨x, ha, he⟩ <;> rw [he]
  · exact drewOk_of_transaction ha rfl rfl
  · exact drewErr_of_transaction ha rfl rfl

theorem sinkFlush_stopsAtErr (s : State) : (sinkFlush s).StopsAtErr s := by
  rcases sinkFlush_cases s with ⟨ha, he⟩ | ⟨x, ha, he⟩ <;> rw [he]
  · exact drewOk_of_transaction ha rfl rfl
  · exact drewErr_of_transaction ha rfl rfl

theorem putBit_stopsAtErr (b : Bool) (s : State) : (putBit b s).StopsAtErr s := by
  rcases putBit_cases b s with ⟨-, he⟩ | ⟨-, ha, he⟩ | ⟨x, -, ha, he⟩ <;> rw [he]
  · exact drewOk_of_no_transaction rfl rfl
  · exact drewOk_of_transaction ha rfl rfl
  · exact drewErr_of_transaction ha rfl rfl

theorem getBit_stopsAtErr (s : State) : (getBit s).StopsAtErr s := by
  rcases getBit_cases s with ⟨-, he⟩ | ⟨-, ha, he⟩ | ⟨x, -, ha, he⟩ <;> rw [he]
  · exact drewOk_of_no_transaction rfl rfl
  · exact drewOk_of_transaction ha rfl rfl
  · exact drewErr_of_transaction ha rfl rfl

theorem putField_stopsAtErr (v : Data) (count k : Nat) (s : State) : (putField v count k s).StopsAtErr s := by
  induction count generalizing k s with
  | zero => exact .done () s
  | succ count ih => exact (putBit_stopsAtErr _ s).bind fun _ t => ih (k + 1) t

theorem getField_stopsAtErr (count k : Nat) (value : Data) (s : State) : (getField count k value s).StopsAtErr s := by
  induction count generalizing k value s with
  | zero => exact .done value s
  | succ count ih => exact (getBit_stopsAtErr s).bind fun bit t => ih (k + 1) (assembleBit value bit k) t

theorem publish_stopsAtErr (s : State) : (publish s).StopsAtErr s := by
  unfold publish
  split
  · exact sinkWrite_stopsAtErr _ s
  · exact .done () s

theorem commandBody_stopsAtErr (i : Instr) (s : State) : (commandBody i s).StopsAtErr s := by
  cases i with
  | writeBit b => exact (putBit_stopsAtErr b s).bind fun _ t => .done 0 t
  | writeBits n v => exact (putField_stopsAtErr v n.toNat 0 s).bind fun _ t => .done 0 t
  | readBit => exact (getBit_stopsAtErr s).bind fun bit t => .done (bitData bit) t
  | readBits n => exact getField_stopsAtErr n.toNat 0 0 s
  | flush =>
    exact (publish_stopsAtErr s).bind fun _ t => (sinkFlush_stopsAtErr t).bind fun _ _ =>
      drewOk_of_no_transaction rfl rfl

/-! ### The order of the faults (R100) -/

/-- How a command that executed is answered: STATUS 0 after transactions that all answered `ok`, or STATUS 1 after
transactions of which the last, and only it, answered `err`. -/
def AnsweredAsExecuted (s : State) (r : ResponseWord) (made : Nat) : Prop :=
  (responseStatus r = 0#4 ∧ s.answersOk made) ∨
  (responseStatus r = 1#4 ∧ 0 < made ∧ (∀ k, k + 1 < made → s.answerAt k = .ok) ∧
    ∃ x, s.answerAt (made - 1) = .err x)

/-- The answer `r` after `made` transactions follows R100: one clause per condition, in the order of priority. -/
structure AnswersInOrder (w : CommandWord) (s : State) (r : ResponseWord) (made : Nat) : Prop where
  faulted : s.fault = true → responseStatus r = s.faultCode ∧ made = 0
  illegal : s.fault = false → wordIllegal w → responseStatus r = 2#4 ∧ made = 0
  wrongMode : s.fault = false → ∀ i, decode w = .command i → s.mode ≠ neededMode i →
    responseStatus r = 3#4 ∧ made = 0
  executed : s.fault = false → ∀ i, decode w = .command i → s.mode = neededMode i → AnsweredAsExecuted s r made

section
variable {w : CommandWord} {s : State} {r : ResponseWord} {made : Nat}

theorem AnswersInOrder.of_fault (hf : s.fault = true) (hr : responseStatus r = s.faultCode) :
    AnswersInOrder w s r 0 where
  faulted _ := ⟨hr, rfl⟩
  illegal h := nomatch hf.symm.trans h
  wrongMode h := nomatch hf.symm.trans h
  executed h := nomatch hf.symm.trans h

theorem AnswersInOrder.of_illegal (hf : s.fault = false) (hw : decode w = .illegalCommand)
    (hr : responseStatus r = 2#4) : AnswersInOrder w s r 0 where
  faulted h := nomatch hf.symm.trans h
  illegal _ _ := ⟨hr, rfl⟩
  wrongMode _ _ hi := nomatch hw.symm.trans hi
  executed _ _ hi := nomatch hw.symm.trans hi

theorem AnswersInOrder.of_wrongMode {i : Instr} (hf : s.fault = false) (hw : decode w = .command i)
    (hm : s.mode ≠ neededMode i) (hr : responseStatus r = 3#4) : AnswersInOrder w s r 0 where
  faulted h := nomatch hf.symm.trans h
  illegal _ h := nomatch hw.symm.trans ((illegalWordsAreExactlyTheReservedOnes w).2 h)
  wrongMode _ _ _ _ := ⟨hr, rfl⟩
  executed _ _ hi hm' := by cases hw.symm.trans hi; exact absurd hm' hm

theorem AnswersInOrder.of_executed {i : Instr} (hf : s.fault = false) (hw : decode w = .command i)
    (hm : s.mode = neededMode i) (hr : AnsweredAsExecuted s r made) : AnswersInOrder w s r made where
  faulted h := nomatch hf.symm.trans h
  illegal _ h := nomatch hw.symm.trans ((illegalWordsAreExactlyTheReservedOnes w).2 h)
  wrongMode _ _ hi hm' := by cases hw.symm.trans hi; exact absurd hm hm'
  executed _ _ _ _ := hr

end

theorem Accepted.answers_in_order {w : CommandWord} {s t : State} (h : Accepted w s t) :
    ∃ r made, t.responses = s.responses ++ [r] ∧ t.drawCount = s.drawCount + made ∧ AnswersInOrder w s r made := by
  cases h with
  | faulted hf => exact ⟨_, 0, rfl, rfl, .of_fault hf (responseStatus_responseWord _ _ _ _)⟩
  | illegal hf hw => exact ⟨_, 0, rfl, rfl, .of_illegal hf hw (responseStatus_responseWord _ _ _ _)⟩
  | wrongMode hf i hw hm => exact ⟨_, 0, rfl, rfl, .of_wrongMode hf hw hm (responseStatus_responseWord _ _ _ _)⟩
  | completed hf i hw hm d u hb =>
    obtain ⟨made, hdrew, hok⟩ := (Progress.meets_iff.1 (commandBody_stopsAtErr i s)).1 d u hb
    have hresp := ((commandBody_frame i s).1 d u hb).responses
    exact ⟨_, made, congrArg (· ++ _) hresp, hdrew.drawCount,
      .of_executed hf hw hm (.inl ⟨responseStatus_responseWord _ _ _ _, hok⟩)⟩
  | failed hf i hw hm u hb =>
    obtain ⟨made, x, hdrew, hok, herr⟩ := (Progress.meets_iff.1 (commandBody_stopsAtErr i s)).2 u hb
    have hresp := ((commandBody_frame i s).2 u hb).responses
    have hbefore (k : Nat) (hk : k + 1 < made + 1) : s.answerAt k = .ok := hok k (Nat.lt_of_succ_lt_succ hk)
    exact ⟨_, made + 1, congrArg (· ++ _) hresp, hdrew.drawCount,
      .of_executed hf hw hm (.inr ⟨responseStatus_responseWord _ _ _ _, Nat.succ_pos _, hbefore, x, herr⟩)⟩

/-- Settles O15, by the five ways a word is answered (`Accepted`); where the body runs, it stops at the first `err`
(`commandBody_stopsAtErr`). -/
theorem firstApplicableFaultIsReported : Obligations.FirstApplicableFaultIsReported := by
  intro s w rest hin
  obtain ⟨t, ht, ha⟩ := accept_cases w { s with inbox := rest }
  obtain ⟨r, made, hresp, hdrew, horder⟩ := ha.answers_in_order
  exact ⟨t, r, made, (step_of_event hin).trans ht, hresp, hdrew, horder.faulted, horder.illegal, horder.wrongMode,
    horder.executed⟩

end Sys2Proof.Machine

/-! Proofs of the reset and hazards family (70_reset_and_hazards.md): a write run's stream is what the sink gained, so the
bytes it held before can be cut off in front of it; and what a faulted, an idle and a newly attached block does. -/

namespace Sys2Proof.Machine

/-! ### The stream of a run after the bytes the sink held before it (R112) -/

theorem bytesBits_drop (n : Nat) (bytes : List Byte) : bytesBits (bytes.drop n) = (bytesBits bytes).drop (8 * n) := by
  induction n generalizing bytes with
  | zero => rfl
  | succ n ih =>
    cases bytes with
    | nil => simp
    | cons x xs =>
      rw [List.drop_succ_cons, ih, bytesBits_cons, Nat.mul_succ, Nat.add_comm, ← List.drop_drop]
      simp

/-- Whole bytes in front leave the padding as it is (R37). -/
theorem padToByte_bytesBits_append (bytes : List Byte) (bits : List Bool) :
    padToByte (bytesBits bytes ++ bits) = bytesBits bytes ++ padToByte bits := by
  rw [padToByte, padToByte, List.length_append, length_bytesBits, Nat.mul_add_mod, List.append_assoc]

/-- A sink that holds the earlier bytes' bits and those of a run, padded, gained just the run's. -/
theorem bytesBits_sinkSince {before after : State} {bits : List Bool}
    (h : bytesBits after.sinkBytes = padToByte (bytesBits before.sinkBytes ++ bits)) :
    bytesBits (sinkSince before after) = padToByte bits := by
  rw [sinkSince, bytesBits_drop, h, padToByte_bytesBits_append]
  exact List.drop_left' (length_bytesBits before.sinkBytes)

/-- Settles O58: no command changes MODE, so the run's last command is FLUSH; it puts every written bit in the sink
(`flushPutsEveryWrittenBitInTheSink`), behind the bytes of before the run. -/
theorem goodEndOfAWriteRunIsComplete : Obligations.GoodEndOfAWriteRunIsComplete := by
  intro start s t w rest bits hinv hf hm hwritten hin hstep hend
  obtain ⟨-, hft, hlast⟩ := hend
  have hmode : t.mode = s.mode := (accepted_of_step hin hstep).frame.mode
  have hflush : exec .flush { s with inbox := rest } = .next t :=
    (stepRunsTheDecodedCommand s w .flush rest hin (hlast (hmode.trans hm))).symm.trans hstep
  obtain ⟨hsink, -⟩ := flushPutsEveryWrittenBitInTheSink _ t (hinv.inbox rest) hf hm hflush hft
  exact bytesBits_sinkSince (hsink.trans (congrArg padToByte hwritten))

/-! ### A faulted, an idle and a newly attached block (R110, R111, R120) -/

/-- Settles O11: entry makes the same check of FAULT for a word (`step_of_command_of_fault`) and for a command. -/
theorem faultedBlockOnlyAnswers : Obligations.FaultedBlockOnlyAnswers := by
  intro s hf
  refine ⟨fun w rest hin => step_of_command_of_fault hin hf, fun i => ?_⟩
  rw [exec_eq, enter_of_fault hf]
  rfl

/-- Settles O23: there is no event to take off the list. -/
theorem idleBlockWaits : Obligations.IdleBlockWaits := by
  intro s h
  simp [step, takeEvent, h]

/-- Settles O24, from what each of the two events does; a new sink has no transaction in its log, and a new source stands
at position 0. -/
theorem attachingReplacesOnlyTheAgent : Obligations.AttachingReplacesOnlyTheAgent :=
  fun _ _ _ => ⟨fun hin => ⟨_, step_of_event hin, rfl, rfl⟩, fun hin => ⟨_, step_of_event hin, rfl, rfl⟩⟩

end Sys2Proof.Machine
